-- ==== Sys2Proof/Word.lean ====
section
/-! DEFINITION. The value types of the machine: bytes, 16-bit words, 12-bit addresses, register and key numbers.
Widths are those of spec/00_scope.md R4. Every value is unsigned (R7, R140): nothing here is sign-extended. -/

namespace Sys2Proof

/-- An 8-bit value: a general register, a timer, a byte of Memory, an 8-bit immediate (R4: XLEN, TLEN). -/
abbrev Byte := BitVec 8

/-- A 16-bit value: I, PC, a call-stack entry, an instruction word (R4: ILEN, PCLEN, STACK_W). -/
abbrev Word := BitVec 16

/-- The 12-bit address/immediate field nnn of an instruction (R91). -/
abbrev Addr12 := BitVec 12

/-- A general-register number, in 0..15 by construction (R30). -/
abbrev Reg := Fin 16

/-- A key number 0x0..0xF (R29, R211: an event with a key outside 0..15 does not exist). -/
abbrev Key := Fin 16

end Sys2Proof
end

