-- ==== Sys2Proof/Syntax.lean ====
section
/-! DEFINITION. The instructions: one constructor per row of spec/opcode_table.json, in the table's order (spec/30_encoding.md
R95). Operand fields are those of R91, R92: `x`, `y` register numbers, `kk` an 8-bit immediate, `nnn` a 12-bit address,
`n` a row count. -/

namespace Sys2Proof

inductive Instr where
  /-- 00E0 clear-screen (R195). -/
  | cls
  /-- 00EE return (R123). -/
  | ret
  /-- 1nnn jump (R124). -/
  | jp (nnn : Addr12)
  /-- 2nnn call (R125). -/
  | call (nnn : Addr12)
  /-- 3xkk skip-if-equal Vx,imm (R127). -/
  | seImm (x : Reg) (kk : Byte)
  /-- 4xkk skip-if-not-equal Vx,imm (R128). -/
  | sneImm (x : Reg) (kk : Byte)
  /-- 5xy0 skip-if Vx==Vy (R129). -/
  | seReg (x y : Reg)
  /-- 6xkk set Vx,imm (R142). -/
  | ldImm (x : Reg) (kk : Byte)
  /-- 7xkk add Vx,imm (R143). -/
  | addImm (x : Reg) (kk : Byte)
  /-- 8xy0 set Vx,Vy (R146). -/
  | ldReg (x y : Reg)
  /-- 8xy1 OR (R147). -/
  | orReg (x y : Reg)
  /-- 8xy2 AND (R148). -/
  | andReg (x y : Reg)
  /-- 8xy3 XOR (R149). -/
  | xorReg (x y : Reg)
  /-- 8xy4 add Vx,Vy (R150). -/
  | addReg (x y : Reg)
  /-- 8xy5 sub Vx,Vy (R151). -/
  | subReg (x y : Reg)
  /-- 8xy6 shift-right Vx (R153). The y field is carried because the word holds it; the instruction ignores it (R92). -/
  | shr (x y : Reg)
  /-- 8xy7 subn Vx,Vy (R152). -/
  | subnReg (x y : Reg)
  /-- 8xyE shift-left Vx (R154). The y field is carried and ignored, as in `shr`. -/
  | shl (x y : Reg)
  /-- 9xy0 skip-if Vx!=Vy (R130). -/
  | sneReg (x y : Reg)
  /-- Annn set-index (R170). -/
  | ldI (nnn : Addr12)
  /-- Bnnn jump-with-offset (R126). -/
  | jpV0 (nnn : Addr12)
  /-- Cxkk random Vx,mask (R155). -/
  | rnd (x : Reg) (kk : Byte)
  /-- Dxyn draw Vx,Vy,n (R196). The row count is a count, 0..15 in a well-formed instruction. -/
  | drw (x y : Reg) (n : Nat)
  /-- Ex9E skip-if-key-pressed (R214). -/
  | skp (x : Reg)
  /-- ExA1 skip-if-key-not-pressed (R215). -/
  | sknp (x : Reg)
  /-- Fx07 Vx:=delay-timer (R218). -/
  | ldVxDT (x : Reg)
  /-- Fx0A wait-for-key Vx (R216). -/
  | ldVxK (x : Reg)
  /-- Fx15 delay-timer:=Vx (R219). -/
  | ldDTVx (x : Reg)
  /-- Fx18 sound-timer:=Vx (R220). -/
  | ldSTVx (x : Reg)
  /-- Fx1E index += Vx (R171). -/
  | addI (x : Reg)
  /-- Fx29 index := font-address(Vx) (R172). -/
  | ldF (x : Reg)
  /-- Fx33 store-BCD Vx (R173). -/
  | ldB (x : Reg)
  /-- Fx55 register-dump Vx (R174). -/
  | dump (x : Reg)
  /-- Fx65 register-load Vx (R175). -/
  | load (x : Reg)
  deriving DecidableEq, Repr

end Sys2Proof
end

