-- ==== Sys2Proof/Decode.lean ====
section
/-! DEFINITION. Decoding (spec/30_encoding.md R90 to R97) and, after it, encoding, both from the opcode map R95.
Decoding is total: every word is one of the 34 instructions or an unknown combination (R96). -/

namespace Sys2Proof

/-- Why bytes are not an instruction. -/
inductive DecodeError where
  /-- Fewer than the two bytes of an instruction (R90). -/
  | truncated
  /-- The word matches no row of R95: an unknown combination (R96). -/
  | unknownCombination (w : Word)
  deriving DecidableEq, Repr

/-- `w[hi:lo]`: the unsigned value of bits hi down to lo inclusive (R7). -/
def bits (w : Word) (hi lo : Nat) : Nat := w.toNat / 2 ^ lo % 2 ^ (hi + 1 - lo)

/-- The instruction word of two bytes, the one at the lower address first: big-endian (spec/20_memory.md R63). -/
def wordOfBytes (first second : Byte) : Word := BitVec.ofNat 16 (first.toNat * 256 + second.toNat)

/-- The two bytes of an instruction word, in the order they stand in Memory (R63). -/
def bytesOfWord (w : Word) : List Byte := [BitVec.ofNat 8 (bits w 15 8), BitVec.ofNat 8 (bits w 7 0)]

/-- Field family, w[15:12] (R91). -/
def fieldFamily (w : Word) : Nat := bits w 15 12

/-- Field x, w[11:8] (R91). -/
def fieldX (w : Word) : Reg := Fin.ofNat 16 (bits w 11 8)

/-- Field y, w[7:4] (R91). -/
def fieldY (w : Word) : Reg := Fin.ofNat 16 (bits w 7 4)

/-- Field n, w[3:0] (R91). -/
def fieldN (w : Word) : Nat := bits w 3 0

/-- Field kk, w[7:0] (R91). -/
def fieldKK (w : Word) : Byte := BitVec.ofNat 8 (bits w 7 0)

/-- Field nnn, w[11:0] (R91). -/
def fieldNNN (w : Word) : Addr12 := BitVec.ofNat 12 (bits w 11 0)

/-- Family 0: selected by the whole word (R94). -/
def decodeFamily0 (w : Word) : Except DecodeError Instr :=
  if w = 0x00E0 then .ok .cls
  else if w = 0x00EE then .ok .ret
  else .error (.unknownCombination w)

/-- Family 8: selected by n, 0 to 7 and E (R94). -/
def decodeFamily8 (w : Word) : Except DecodeError Instr :=
  match fieldN w with
  | 0x0 => .ok (.ldReg (fieldX w) (fieldY w))
  | 0x1 => .ok (.orReg (fieldX w) (fieldY w))
  | 0x2 => .ok (.andReg (fieldX w) (fieldY w))
  | 0x3 => .ok (.xorReg (fieldX w) (fieldY w))
  | 0x4 => .ok (.addReg (fieldX w) (fieldY w))
  | 0x5 => .ok (.subReg (fieldX w) (fieldY w))
  | 0x6 => .ok (.shr (fieldX w) (fieldY w))
  | 0x7 => .ok (.subnReg (fieldX w) (fieldY w))
  | 0xE => .ok (.shl (fieldX w) (fieldY w))
  | _ => .error (.unknownCombination w)

/-- Family E: selected by kk (R94). -/
def decodeFamilyE (w : Word) : Except DecodeError Instr :=
  if fieldKK w = 0x9E then .ok (.skp (fieldX w))
  else if fieldKK w = 0xA1 then .ok (.sknp (fieldX w))
  else .error (.unknownCombination w)

/-- Family F: selected by kk (R94). -/
def decodeFamilyF (w : Word) : Except DecodeError Instr :=
  if fieldKK w = 0x07 then .ok (.ldVxDT (fieldX w))
  else if fieldKK w = 0x0A then .ok (.ldVxK (fieldX w))
  else if fieldKK w = 0x15 then .ok (.ldDTVx (fieldX w))
  else if fieldKK w = 0x18 then .ok (.ldSTVx (fieldX w))
  else if fieldKK w = 0x1E then .ok (.addI (fieldX w))
  else if fieldKK w = 0x29 then .ok (.ldF (fieldX w))
  else if fieldKK w = 0x33 then .ok (.ldB (fieldX w))
  else if fieldKK w = 0x55 then .ok (.dump (fieldX w))
  else if fieldKK w = 0x65 then .ok (.load (fieldX w))
  else .error (.unknownCombination w)

/-- The decode procedure of R94, with the opcode map of R95. -/
def decodeWord (w : Word) : Except DecodeError Instr :=
  match fieldFamily w with
  | 0x0 => decodeFamily0 w
  | 0x1 => .ok (.jp (fieldNNN w))
  | 0x2 => .ok (.call (fieldNNN w))
  | 0x3 => .ok (.seImm (fieldX w) (fieldKK w))
  | 0x4 => .ok (.sneImm (fieldX w) (fieldKK w))
  | 0x5 => if fieldN w = 0 then .ok (.seReg (fieldX w) (fieldY w)) else .error (.unknownCombination w)
  | 0x6 => .ok (.ldImm (fieldX w) (fieldKK w))
  | 0x7 => .ok (.addImm (fieldX w) (fieldKK w))
  | 0x8 => decodeFamily8 w
  | 0x9 => if fieldN w = 0 then .ok (.sneReg (fieldX w) (fieldY w)) else .error (.unknownCombination w)
  | 0xA => .ok (.ldI (fieldNNN w))
  | 0xB => .ok (.jpV0 (fieldNNN w))
  | 0xC => .ok (.rnd (fieldX w) (fieldKK w))
  | 0xD => .ok (.drw (fieldX w) (fieldY w) (fieldN w))
  | 0xE => decodeFamilyE w
  | 0xF => decodeFamilyF w
  | _ => .error (.unknownCombination w)

/-- The decoder on bytes: the first instruction and the bytes after it. Total on any bytes. -/
def decode : List Byte → Except DecodeError (Instr × List Byte)
  | first :: second :: rest =>
    match decodeWord (wordOfBytes first second) with
    | .ok i => .ok (i, rest)
    | .error e => .error e
  | _ => .error .truncated

/-! The encoder: the six formats of R92, then the rows of R95. -/

/-- Format A, `Fnnn`. -/
def formatA (family : Nat) (nnn : Addr12) : Word := BitVec.ofNat 16 (family * 4096 + nnn.toNat)

/-- Format K, `Fxkk`. -/
def formatK (family : Nat) (x : Reg) (kk : Byte) : Word :=
  BitVec.ofNat 16 (family * 4096 + x.val * 256 + kk.toNat)

/-- Formats R and D, `FxyS` and `Dxyn`: a low nibble that is a sub-opcode or the row count. -/
def formatR (family : Nat) (x y : Reg) (low : Nat) : Word :=
  BitVec.ofNat 16 (family * 4096 + x.val * 256 + y.val * 16 + low)

/-- Format X, `FxSS`. -/
def formatX (family : Nat) (x : Reg) (sub : Nat) : Word :=
  BitVec.ofNat 16 (family * 4096 + x.val * 256 + sub)

/-- The instruction word of an instruction (R95). -/
def encodeWord : Instr → Word
  | .cls => 0x00E0
  | .ret => 0x00EE
  | .jp nnn => formatA 0x1 nnn
  | .call nnn => formatA 0x2 nnn
  | .seImm x kk => formatK 0x3 x kk
  | .sneImm x kk => formatK 0x4 x kk
  | .seReg x y => formatR 0x5 x y 0x0
  | .ldImm x kk => formatK 0x6 x kk
  | .addImm x kk => formatK 0x7 x kk
  | .ldReg x y => formatR 0x8 x y 0x0
  | .orReg x y => formatR 0x8 x y 0x1
  | .andReg x y => formatR 0x8 x y 0x2
  | .xorReg x y => formatR 0x8 x y 0x3
  | .addReg x y => formatR 0x8 x y 0x4
  | .subReg x y => formatR 0x8 x y 0x5
  | .shr x y => formatR 0x8 x y 0x6
  | .subnReg x y => formatR 0x8 x y 0x7
  | .shl x y => formatR 0x8 x y 0xE
  | .sneReg x y => formatR 0x9 x y 0x0
  | .ldI nnn => formatA 0xA nnn
  | .jpV0 nnn => formatA 0xB nnn
  | .rnd x kk => formatK 0xC x kk
  | .drw x y n => formatR 0xD x y n
  | .skp x => formatX 0xE x 0x9E
  | .sknp x => formatX 0xE x 0xA1
  | .ldVxDT x => formatX 0xF x 0x07
  | .ldVxK x => formatX 0xF x 0x0A
  | .ldDTVx x => formatX 0xF x 0x15
  | .ldSTVx x => formatX 0xF x 0x18
  | .addI x => formatX 0xF x 0x1E
  | .ldF x => formatX 0xF x 0x29
  | .ldB x => formatX 0xF x 0x33
  | .dump x => formatX 0xF x 0x55
  | .load x => formatX 0xF x 0x65

/-- The bytes of an instruction as they stand in Memory. -/
def encode (i : Instr) : List Byte := bytesOfWord (encodeWord i)

/-- The word that the opcode table's numbering calls `w` (bit 0 the least significant bit of the one instruction word);
bits above `nbits` are 0. -/
def tableWord (nbits w : Nat) : Word := BitVec.ofNat 16 (w % 2 ^ nbits)

/-- What the decoder reads from the instruction whose bits are `w`, laid out as Memory holds them. -/
def decodeTableWord (nbits w : Nat) : Option Instr :=
  match decode (bytesOfWord (tableWord nbits w)) with
  | .ok (i, _) => some i
  | .error _ => none

end Sys2Proof
end

