-- ==== Sys2Proof/Config.lean ====
section
/-! DEFINITION. The build-time parameters the spec leaves OPEN (spec/00_scope.md R6) and the one free value, the random byte.
A `Config` is a field of State that nothing writes, so that a statement over all states is a statement over all
configurations; the defaults are the spec's (R6), used at reset (log entries 5 and 6). -/

namespace Sys2Proof

/-- The OPEN parameters of R6 that the machine's own rules read. CYCLES_PER_TICK belongs to the driver's schedule and is an
argument of `Machine.driverFrame` (R271); `rnd` is `Config.randomByte` below. -/
structure Config where
  /-- FONT_BASE: where the 80 font bytes stand (R77, decision D4). -/
  fontBase : Nat := 0x000
  /-- STACK_LIMIT: none, or the depth at which a call raises StackOverflow (R24, R235, decision D8). -/
  stackLimit : Option Nat := none
  /-- SOUND_GATED: is the sound timer's decrement gated on DT being nonzero (R222, decision D9). -/
  soundGated : Bool := false
  deriving DecidableEq, Repr

/-- The constraints R6 puts on the parameters: FONT_BASE + 80 <= 0x200, and STACK_LIMIT none or a positive count. -/
def Config.wf (c : Config) : Bool :=
  decide (c.fontBase + 80 ≤ 0x200) && decide (c.stackLimit ≠ some 0)

/-- The byte on the random input at the `k`-th execution of the random instruction, when the environment has supplied none
in advance: a FREE VALUE (R155, decision D20, U12 "any value"), with no body, so that no proof can know it. Log entry 2. -/
opaque Config.randomByte : Nat → Byte

end Sys2Proof
end

