-- ==== Sys2Proof/Machine/State.lean ====
section
/-! DEFINITION. The state of the machine (spec/10_state.md), plain data, and its reset value (R33).
The tuple of spec/00_scope.md R9 is `v i pc stack dt st mem fb keys err`; the fields after it are the model's own: the
configuration, and the environment's side of the boundary (scheduled events, supplied random bytes, emitted reports). -/

namespace Sys2Proof.Machine

/-- The conditions that latch ERR (spec/60_exceptions.md R230). None of them ends a run of the model: `raise` (R232) answers a
next state with the code latched, and no meaning ever answers `Outcome.fault`. -/
inductive Fault where
  /-- Code 1. Raised by return (00EE) with an empty call stack (R233). Safe: the spec's own halt. -/
  | stackUnderflow
  /-- Code 2. Raised by fetch, store-BCD, register-dump, register-load and draw on an access above 4095 (R234). Safe: the
  spec's own halt. -/
  | addressOutOfBounds
  /-- Code 3. Raised by the event Reset(rom) with more than 3584 bytes (R236). Safe: the spec's own rejection. -/
  | romTooLarge
  /-- Code 4. Raised by call (2nnn) at depth STACK_LIMIT, where that parameter is a number (R235). Safe: the spec's own halt. -/
  | stackOverflow
  deriving DecidableEq, Repr

/-- Reasons the model gives no meaning to an instruction. -/
inductive Refusal where
  /-- Raised by an arm of exec whose instruction has no meaning yet; no arm raises it. Safe: the model stops. -/
  | notModelled (mnemonic : String)
  deriving DecidableEq, Repr

/-- The events the environment issues, one at a time (spec/00_scope.md R9). -/
inductive Event where
  /-- `Reset(rom)` (spec/70_reset_and_hazards.md R260). -/
  | reset (rom : List Byte)
  /-- `Step(rnd)` (spec/40_control.md R121); its byte is on the random input (`State.randomInput`). -/
  | step
  /-- `Tick` (spec/44_keypad_timers.md R222). -/
  | tick
  /-- `Press(k)` (R211). -/
  | press (k : Key)
  /-- `Release(k)` (R211). -/
  | release (k : Key)
  deriving DecidableEq, Repr

/-- Memory: the cells that differ from their reset contents, addresses strictly rising (spec/20_memory.md R67; log entry 4). -/
abbrev Memory := List Host.Cell

/-- The frame buffer: row y is element y, and the pixel at column x of a row is its bit x (spec/10_state.md R28: 64 columns,
32 rows, each cell 0 or 1 and nothing else; log entry 9). -/
abbrev Frame := Vector (BitVec 64) 32

/-- The state. -/
structure State where
  /-- V0..VF; VF is element 15 (R20, R21). -/
  v : Vector Byte 16
  /-- The index register I (R22). -/
  i : Word
  /-- The program counter PC (R23). -/
  pc : Word
  /-- The call stack, newest entry last (R24). -/
  stack : List Word
  /-- The delay timer DT (R25). -/
  dt : Byte
  /-- The sound timer ST (R26). -/
  st : Byte
  /-- Memory (R27). -/
  mem : Memory
  /-- The frame buffer (R28). -/
  fb : Frame
  /-- The keypad: `keys[k]` is true while key k is held (R29). -/
  keys : Vector Bool 16
  /-- The fault latch ERR; `none` is code 0 (R31). -/
  err : Option Fault
  /-- The build-time parameters (R6); nothing writes them. -/
  cfg : Config
  /-- Model's own: the events the environment issues next, in order; when it is empty the next event is a `Step` (log entry 1). -/
  schedule : List Event
  /-- Model's own: bytes the environment has put on the random input, one for each coming execution of the random
  instruction; when it is empty the byte is free (log entry 2). -/
  rndSupply : List Byte
  /-- Model's own: how many times the random instruction has executed; picks the free byte (log entry 2). -/
  rndCount : Nat
  /-- Model's own: the words of the UnknownOpcode reports emitted so far, newest last. An output, not readable by the program
  (R231; log entry 3). -/
  reports : List Word
  deriving DecidableEq, Repr

/-- The state after reset with no ROM bytes (R33, R260), before any event. -/
def State.reset : State where
  v := Vector.replicate 16 0x00
  i := 0x0000
  pc := 0x0200
  stack := []
  dt := 0x00
  st := 0x00
  mem := []
  fb := Vector.replicate 32 0
  keys := Vector.replicate 16 false
  err := none
  cfg := {}
  schedule := []
  rndSupply := []
  rndCount := 0
  reports := []

end Sys2Proof.Machine
end

