-- ==== Sys2Proof/Machine/Ops.lean ====
section
/-! DEFINITION. The named operations every meaning is written with: registers, Memory, the call stack, fetch, raising a fault,
reporting an unknown word (the primitives of spec/00_scope.md R8). -/

namespace Sys2Proof.Machine

/-- What a step or a meaning answers. -/
abbrev Result := Host.Outcome State Fault Refusal

/-! ## Registers -/

/-- VF is general register 15 (spec/10_state.md R21). -/
def vf : Reg := 15

/-- `V[x]` (R20). -/
def State.reg (s : State) (x : Reg) : Byte := s.v[x]

/-- `V[x] <- b` (R20). -/
def State.setReg (s : State) (x : Reg) (b : Byte) : State := { s with v := s.v.set x b }

/-- `pc <- target` (R23). -/
def State.setPc (s : State) (target : Word) : State := { s with pc := target }

/-- `I <- w` (R22). -/
def State.setI (s : State) (w : Word) : State := { s with i := w }

/-- The registers V0, V1, ..., VF in ascending order. -/
def allRegs : List Reg := [0, 1, 2, 3, 4, 5, 6, 7, 8, 9, 10, 11, 12, 13, 14, 15]

/-- The registers `0..=x` of register-dump and register-load, ascending (R174, R175). -/
def regsUpTo (x : Reg) : List Reg := allRegs.filter (fun k => decide (k.val ≤ x.val))

/-! ## Memory -/

/-- The highest address of Memory (R27). -/
def lastAddr : Nat := 4095

/-- PROG_BASE: where the ROM image starts and where PC resets to (R4). -/
def progBase : Nat := 0x200

/-- The sixteen font glyphs, five rows each, most significant bit leftmost (spec/20_memory.md R68; glyphs 1 to F are decision
D5, log entry 7). -/
def fontGlyphs : List (List Byte) :=
  [[0xF0, 0x90, 0x90, 0x90, 0xF0], [0x20, 0x60, 0x20, 0x20, 0x70]] ++
  [[0xF0, 0x10, 0xF0, 0x80, 0xF0], [0xF0, 0x10, 0xF0, 0x10, 0xF0]] ++
  [[0x90, 0x90, 0xF0, 0x10, 0x10], [0xF0, 0x80, 0xF0, 0x10, 0xF0]] ++
  [[0xF0, 0x80, 0xF0, 0x90, 0xF0], [0xF0, 0x10, 0x20, 0x40, 0x40]] ++
  [[0xF0, 0x90, 0xF0, 0x90, 0xF0], [0xF0, 0x90, 0xF0, 0x10, 0xF0]] ++
  [[0xF0, 0x90, 0xF0, 0x90, 0x90], [0xE0, 0x90, 0xE0, 0x90, 0xE0]] ++
  [[0xF0, 0x80, 0x80, 0x80, 0xF0], [0xE0, 0x90, 0x90, 0x90, 0xE0]] ++
  [[0xF0, 0x80, 0xF0, 0x80, 0xF0], [0xF0, 0x80, 0xF0, 0x80, 0x80]]

/-- The 80 font bytes in the order they stand from FONT_BASE (R68, R77). -/
def fontBytes : List Byte := fontGlyphs.flatten

/-- What an unlisted address reads as: the reset contents, the font at FONT_BASE and 0x00 elsewhere (R33, R67). -/
def Memory.initial (cfg : Config) (a : Nat) : Byte :=
  if cfg.fontBase ≤ a ∧ a < cfg.fontBase + 80 then fontBytes.getD (a - cfg.fontBase) 0 else 0

/-- `mem[a]`. -/
def Memory.read (cfg : Config) : Memory → Nat → Byte
  | [], a => Memory.initial cfg a
  | (b, w) :: rest, a => if b = a then w else Memory.read cfg rest a

/-- List the cell `(a, v)`, keeping addresses strictly rising. -/
def Memory.put (a : Nat) (v : Byte) : Memory → Memory
  | [] => [(a, v)]
  | (b, w) :: rest =>
    if a < b then (a, v) :: (b, w) :: rest
    else if a = b then (a, v) :: rest
    else (b, w) :: Memory.put a v rest

/-- Unlist address `a`. -/
def Memory.drop (a : Nat) : Memory → Memory
  | [] => []
  | (b, w) :: rest => if a = b then rest else (b, w) :: Memory.drop a rest

/-- `mem[a] <- v`, in canonical form. -/
def Memory.write (cfg : Config) (m : Memory) (a : Nat) (v : Byte) : Memory :=
  if v = Memory.initial cfg a then Memory.drop a m else Memory.put a v m

/-- The bytes `vs` stored at `a, a+1, ...` in ascending order (R64). -/
def Memory.writeBytes (cfg : Config) : Memory → Nat → List Byte → Memory
  | m, _, [] => m
  | m, a, v :: vs => Memory.writeBytes cfg (Memory.write cfg m a v) (a + 1) vs

/-- Every listed cell is above `low`, inside Memory, and differs from its reset contents; addresses strictly rise. -/
def Memory.wfFrom (cfg : Config) : Nat → Memory → Bool
  | _, [] => true
  | low, (a, v) :: rest =>
    decide (low ≤ a) && decide (a ≤ lastAddr) && decide (v ≠ Memory.initial cfg a) && Memory.wfFrom cfg (a + 1) rest

/-- The canonical form of Memory: equal memories are equal lists. -/
def Memory.wf (cfg : Config) (m : Memory) : Bool := Memory.wfFrom cfg 0 m

/-- The byte of Memory at `a`. -/
def State.byteAt (s : State) (a : Nat) : Byte := Memory.read s.cfg s.mem a

/-- The `n` bytes at `a, a+1, ...`. -/
def State.bytesAt (s : State) (a n : Nat) : List Byte := (List.range n).map (fun k => s.byteAt (a + k))

/-- The bytes `vs` stored at `a, a+1, ...`. -/
def State.storeBytes (s : State) (a : Nat) (vs : List Byte) : State :=
  { s with mem := Memory.writeBytes s.cfg s.mem a vs }

/-- The bounds check of R61, R62, made once on the highest address an instruction will use (R66). Addresses are unbounded
natural numbers, never wrapped or masked (R71). -/
def inBounds (highest : Nat) : Bool := decide (highest ≤ lastAddr)

/-! ## The call stack -/

/-- `push(w)` (R24). -/
def State.push (s : State) (w : Word) : State := { s with stack := s.stack ++ [w] }

/-- `pop()`: the newest entry and the state without it, or none if the stack is empty (R24). -/
def State.pop (s : State) : Option (Word × State) :=
  match s.stack.getLast? with
  | none => none
  | some w => some (w, { s with stack := s.stack.dropLast })

/-- Is the stack at the depth STACK_LIMIT (R24, R125)? -/
def State.stackFull (s : State) : Bool := decide (s.cfg.stackLimit = some s.stack.length)

/-! ## Faults and reports -/

/-- `raise E` (spec/60_exceptions.md R232, R240): the one way a fault is taken. The code is latched in ERR and nothing else
changes: no register is saved, there is no mode to change and no vector to load. The PC is what it was at the raise. There is
no return from a fault (R241); only the event Reset clears ERR. -/
def raise (f : Fault) (s : State) : Result := .next { s with err := some f }

/-- The 3-bit code of a latched condition (R31, R230). -/
def Fault.code : Fault → BitVec 3
  | .stackUnderflow => 1
  | .addressOutOfBounds => 2
  | .romTooLarge => 3
  | .stackOverflow => 4

/-- ERR as the 3-bit status value the environment sees (R11, R31). -/
def State.errCode (s : State) : BitVec 3 :=
  match s.err with
  | none => 0
  | some f => f.code

/-- `log UnknownOpcode(w)` (R231): the report goes out, nothing else changes. -/
def State.report (s : State) (w : Word) : State := { s with reports := s.reports ++ [w] }

/-! ## Fetch and skip -/

/-- `Fetch()` (spec/40_control.md R120): the word at PC, big-endian, and the state with PC advanced by 2; none where
PC + 1 > 4095. -/
def State.fetch (s : State) : Option (Word × State) :=
  if inBounds (s.pc.toNat + 1) then
    some (wordOfBytes (s.byteAt s.pc.toNat) (s.byteAt (s.pc.toNat + 1)), s.setPc (s.pc + 2))
  else none

/-- The skip of the conditional instructions: PC advances by 2 more, modulo 65536, when the condition holds (R127 to R130). -/
def State.skipIf (s : State) (taken : Bool) : State := if taken then s.setPc (s.pc + 2) else s

/-! ## The random input -/

/-- The byte `rnd` offered to the random instruction executing now (R155). -/
def State.randomInput (s : State) : Byte :=
  match s.rndSupply with
  | b :: _ => b
  | [] => Config.randomByte s.rndCount

/-- The random input after its byte is consumed. -/
def State.consumeRandom (s : State) : State :=
  { s with rndSupply := s.rndSupply.tail, rndCount := s.rndCount + 1 }

/-! ## The keypad -/

/-- The keys in ascending order. -/
def allKeys : List Key := [0, 1, 2, 3, 4, 5, 6, 7, 8, 9, 10, 11, 12, 13, 14, 15]

/-- `KeyPressed(k)` (spec/44_keypad_timers.md R212). -/
def State.keyPressed (s : State) (k : Key) : Bool := s.keys[k]

/-- `KeyLowest()`: the least key that is down, or none (R213). -/
def State.keyLowest (s : State) : Option Key := allKeys.find? s.keyPressed

/-- `keys[k] <- down` (R211). -/
def State.setKey (s : State) (k : Key) (down : Bool) : State := { s with keys := s.keys.set k down }

/-! ## Outputs -/

/-- The level `sound_active` (spec/00_scope.md R11, decision D31). -/
def State.soundActive (s : State) : Bool := decide (s.st ≠ 0)

end Sys2Proof.Machine
end

