-- ==== Sys2Proof/Machine/Flags.lean ====
section
/-! DEFINITION. Every flag computation (spec/10_state.md R35): the value written to VF, always 0x00 or 0x01, computed on
mathematical integers (spec/41_alu.md R140). -/

namespace Sys2Proof.Machine

/-- A flag as the full 8-bit value 0x00 or 0x01 (R35). -/
def flagByte (b : Bool) : Byte := if b then 1 else 0

/-- Carry: the unwrapped sum exceeds 255 (R150). -/
def carry (p q : Byte) : Byte := flagByte (decide (p.toNat + q.toNat > 255))

/-- Not-borrow of `p - q`: p >= q (R151, R152). -/
def notBorrow (p q : Byte) : Byte := flagByte (decide (p.toNat ≥ q.toNat))

/-- Bit 0 of the operand (R153). -/
def lowBit (p : Byte) : Byte := flagByte (p.getLsbD 0)

/-- Bit 7 of the operand (R154). -/
def highBit (p : Byte) : Byte := flagByte (p.getLsbD 7)

/-- Does the unwrapped sum `I + Vx` exceed 0x0FFF (R171)? -/
def indexOverflow (i : Word) (q : Byte) : Bool := decide (i.toNat + q.toNat > 0x0FFF)

/-- Write the result to Vx and then the flag to VF: flag last, so that with x = 15 the register ends holding the flag
(R141, decision D14). Both were computed from operands latched before either write. -/
def State.setRegFlag (s : State) (x : Reg) (result flag : Byte) : State := (s.setReg x result).setReg vf flag

end Sys2Proof.Machine
end

