-- ==== Sys2Proof/Machine/Operands.lean ====
section
/-! DEFINITION. Every operand form the spec gives: immediates (spec/30_encoding.md R93), the jump-with-offset target, the one data
addressing mode "I plus a count" (spec/42_index_memory.md R177), values used as a digit or a key number, the BCD digits and
the sprite origin. -/

namespace Sys2Proof.Machine

/-- `zext_16(nnn)`: the 12-bit immediate with the high 4 bits zero (R93). -/
def zext16 (nnn : Addr12) : Word := nnn.setWidth 16

/-- `zext_16(nnn) + zext_16(V[0])` modulo 65536 (spec/40_control.md R126): the offset register is always V0 (R5). -/
def offsetTarget (s : State) (nnn : Addr12) : Word := zext16 nnn + (s.reg 0).setWidth 16

/-- The effective address `I + k`: an unbounded natural number, not wrapped or masked (spec/20_memory.md R71). -/
def State.indexAddr (s : State) (k : Nat) : Nat := s.i.toNat + k

/-- `V[x] & 0x0F`, the low 4 bits, as a number in 0..15: the digit of font-address (R172, decision D16) and the key number of the key skips
(R214, R215, decision D17). -/
def lowNibble (b : Byte) : Fin 16 := Fin.ofNat 16 (b &&& 0x0F).toNat

/-- `font_address(d)` = FONT_BASE + 5*d (R77), as the 16-bit value I receives. -/
def fontAddress (cfg : Config) (d : Fin 16) : Word := BitVec.ofNat 16 (cfg.fontBase + 5 * d.val)

/-- The hundreds, tens and ones digits, most significant first (R173, R64). -/
def bcdDigits (b : Byte) : List Byte :=
  [BitVec.ofNat 8 (b.toNat / 100), BitVec.ofNat 8 (b.toNat / 10 % 10), BitVec.ofNat 8 (b.toNat % 10)]

/-- The registers V0 through Vx, the bytes register-dump stores (R174). -/
def dumpBytes (s : State) (x : Reg) : List Byte := (regsUpTo x).map s.reg

/-- Registers V0 through Vx loaded from `base, base+1, ...` (R175). Memory is read as it stands before the instruction. -/
def loadRegs (s : State) (base : Nat) (x : Reg) : State :=
  (regsUpTo x).foldl (fun t k => t.setReg k (s.byteAt (base + k.val))) s

/-- The column of a sprite's origin, `vx mod 64` (spec/43_display.md R196). -/
def originColumn (vx : Byte) : Nat := vx.toNat % 64

/-- The row of a sprite's origin, `vy mod 32` (R196). -/
def originRow (vy : Byte) : Nat := vy.toNat % 32

end Sys2Proof.Machine
end

