-- ==== Sys2Proof/Machine/Alu.lean ====
section
/-! DEFINITION. The register datapath (spec/41_alu.md). No meaning here touches PC, Memory, the stack, the frame buffer or the
keypad, and none can fault (R144). Operands are read before any write (R141). -/

namespace Sys2Proof.Machine

/-- set Vx,imm (R142). -/
def execLdImm (x : Reg) (kk : Byte) (s : State) : Result := .next (s.setReg x kk)

/-- add Vx,imm: modulo 256, no flag (R143). -/
def execAddImm (x : Reg) (kk : Byte) (s : State) : Result := .next (s.setReg x (s.reg x + kk))

/-- set Vx,Vy (R146). -/
def execLdReg (x y : Reg) (s : State) : Result := .next (s.setReg x (s.reg y))

/-- OR (R147): VF is left as it was. -/
def execOrReg (x y : Reg) (s : State) : Result := .next (s.setReg x (s.reg x ||| s.reg y))

/-- AND (R148). -/
def execAndReg (x y : Reg) (s : State) : Result := .next (s.setReg x (s.reg x &&& s.reg y))

/-- XOR (R149). -/
def execXorReg (x y : Reg) (s : State) : Result := .next (s.setReg x (s.reg x ^^^ s.reg y))

/-- add Vx,Vy (R150). -/
def execAddReg (x y : Reg) (s : State) : Result :=
  .next (s.setRegFlag x (s.reg x + s.reg y) (carry (s.reg x) (s.reg y)))

/-- sub Vx,Vy (R151). -/
def execSubReg (x y : Reg) (s : State) : Result :=
  .next (s.setRegFlag x (s.reg x - s.reg y) (notBorrow (s.reg x) (s.reg y)))

/-- subn Vx,Vy (R152). -/
def execSubnReg (x y : Reg) (s : State) : Result :=
  .next (s.setRegFlag x (s.reg y - s.reg x) (notBorrow (s.reg y) (s.reg x)))

/-- shift-right Vx (R153): the y field is ignored. -/
def execShr (x : Reg) (s : State) : Result := .next (s.setRegFlag x (s.reg x >>> 1) (lowBit (s.reg x)))

/-- shift-left Vx (R154): the y field is ignored. -/
def execShl (x : Reg) (s : State) : Result := .next (s.setRegFlag x (s.reg x <<< 1) (highBit (s.reg x)))

/-- random Vx,mask (R155). -/
def execRnd (x : Reg) (kk : Byte) (s : State) : Result := .next ((s.setReg x (s.randomInput &&& kk)).consumeRandom)

end Sys2Proof.Machine
end

