-- ==== Sys2Proof/Machine/Control.lean ====
section
/-! DEFINITION. Control transfer (spec/40_control.md). Every meaning is the execute phase: fetch has run, so PC is a + 2 where a
is the address the instruction was fetched from (R120, R122). -/

namespace Sys2Proof.Machine

/-- return (R123, R233). -/
def execRet (s : State) : Result :=
  match s.pop with
  | none => raise .stackUnderflow s
  | some (target, s') => .next (s'.setPc target)

/-- jump addr (R124). -/
def execJp (nnn : Addr12) (s : State) : Result := .next (s.setPc (zext16 nnn))

/-- call addr (R125, R235). -/
def execCall (nnn : Addr12) (s : State) : Result :=
  if s.stackFull then raise .stackOverflow s
  else .next ((s.push s.pc).setPc (zext16 nnn))

/-- jump-with-offset addr (R126). -/
def execJpV0 (nnn : Addr12) (s : State) : Result := .next (s.setPc (offsetTarget s nnn))

/-- skip-if-equal Vx,imm (R127). -/
def execSeImm (x : Reg) (kk : Byte) (s : State) : Result := .next (s.skipIf (decide (s.reg x = kk)))

/-- skip-if-not-equal Vx,imm (R128). -/
def execSneImm (x : Reg) (kk : Byte) (s : State) : Result := .next (s.skipIf (decide (s.reg x ≠ kk)))

/-- skip-if Vx==Vy (R129). -/
def execSeReg (x y : Reg) (s : State) : Result := .next (s.skipIf (decide (s.reg x = s.reg y)))

/-- skip-if Vx!=Vy (R130). -/
def execSneReg (x y : Reg) (s : State) : Result := .next (s.skipIf (decide (s.reg x ≠ s.reg y)))

end Sys2Proof.Machine
end

