-- ==== Sys2Proof/Machine/Display.lean ====
section
/-! DEFINITION. The frame buffer, clear-screen and the sprite engine (spec/43_display.md). Column 0 is the left edge and row 0
the top (R194). -/

namespace Sys2Proof.Machine

/-- `FbClear()` (R190). -/
def Frame.clear : Frame := Vector.replicate 32 0

/-- `FbGet(x, y)` (R192): is the pixel at column x of row y on? -/
def Frame.get (fb : Frame) (x : Fin 64) (y : Fin 32) : Bool := fb[y].getLsbD x.val

/-- `FbFlip(x, y)` (R191), the frame buffer after the flip. That the pixel went from 1 to 0 is `Frame.get` before it. -/
def Frame.flip (fb : Frame) (x : Fin 64) (y : Fin 32) : Frame :=
  fb.set y (fb[y] ^^^ BitVec.twoPow 64 x.val)

/-- The read-out (R193): 2048 bytes in row-major order, 0x00 or 0x01 each. -/
def Frame.pixels (fb : Frame) : List Byte :=
  (fb.toList.map fun row => (List.range 64).map fun x => flagByte (row.getLsbD x)).flatten

/-- A draw in progress: the frame buffer so far, and whether a pixel has gone from 1 to 0. -/
abbrev Drawing := Frame × Bool

/-- One sprite bit at column `px` of row `y`: a 1 bit flips its pixel, a column beyond the right edge is not drawn (R196). -/
def drawBit (y : Fin 32) (px : Nat) (on : Bool) (d : Drawing) : Drawing :=
  if h : px < 64 then
    if on then (d.1.flip ⟨px, h⟩ y, d.2 || d.1.get ⟨px, h⟩ y) else d
  else d

/-- One sprite row at row `py`, most significant bit first from column `ox`; a row below the bottom edge is not drawn (R196). -/
def drawRow (ox py : Nat) (byte : Byte) (d : Drawing) : Drawing :=
  if h : py < 32 then
    (List.range 8).foldl (fun d c => drawBit ⟨py, h⟩ (ox + c) (byte.getLsbD (7 - c)) d) d
  else d

/-- The sprite rows, top to bottom, from row `py` (R196). -/
def drawRows (ox : Nat) : Nat → List Byte → Drawing → Drawing
  | _, [], d => d
  | py, byte :: rest, d => drawRows ox (py + 1) rest (drawRow ox py byte d)

/-- clear-screen (R195). -/
def execCls (s : State) : Result := .next { s with fb := Frame.clear }

/-- draw Vx,Vy,n (R196, R197): the operands are read and all n sprite bytes are bounds-checked, clipped or not, before VF and
the frame buffer are written; VF ends as 1 exactly if a flip turned a pixel off. -/
def execDrw (x y : Reg) (n : Nat) (s : State) : Result :=
  if n = 0 ∨ inBounds (s.indexAddr (n - 1)) then
    let d := drawRows (originColumn (s.reg x)) (originRow (s.reg y)) (s.bytesAt (s.indexAddr 0) n) (s.fb, false)
    .next (({ s with fb := d.1 } : State).setReg vf (flagByte d.2))
  else raise .addressOutOfBounds s

end Sys2Proof.Machine
end

