-- ==== Sys2Proof/Machine/IndexMemory.lean ====
section
/-! DEFINITION. The index register and the data accesses (spec/42_index_memory.md). The accesses leave I unchanged (R176) and
are all-or-nothing: the highest address is checked before the first write (spec/20_memory.md R66). -/

namespace Sys2Proof.Machine

/-- set-index addr (R170). -/
def execLdI (nnn : Addr12) (s : State) : Result := .next (s.setI (zext16 nnn))

/-- index += Vx (R171): modulo 65536; VF := 1 when the unwrapped sum exceeds 0x0FFF and is otherwise not written. -/
def execAddI (x : Reg) (s : State) : Result :=
  let s' := s.setI (s.i + (s.reg x).setWidth 16)
  .next (if indexOverflow s.i (s.reg x) then s'.setReg vf 1 else s')

/-- index := font-address(Vx) (R172). -/
def execLdF (x : Reg) (s : State) : Result := .next (s.setI (fontAddress s.cfg (lowNibble (s.reg x))))

/-- store-BCD Vx (R173). -/
def execLdB (x : Reg) (s : State) : Result :=
  if inBounds (s.indexAddr 2) then .next (s.storeBytes (s.indexAddr 0) (bcdDigits (s.reg x)))
  else raise .addressOutOfBounds s

/-- register-dump Vx (R174). -/
def execDump (x : Reg) (s : State) : Result :=
  if inBounds (s.indexAddr x.val) then .next (s.storeBytes (s.indexAddr 0) (dumpBytes s x))
  else raise .addressOutOfBounds s

/-- register-load Vx (R175). -/
def execLoad (x : Reg) (s : State) : Result :=
  if inBounds (s.indexAddr x.val) then .next (loadRegs s (s.indexAddr 0) x)
  else raise .addressOutOfBounds s

end Sys2Proof.Machine
end

