-- ==== Sys2Proof/Machine/KeypadTimers.lean ====
section
/-! DEFINITION. The keypad and timer instructions (spec/44_keypad_timers.md). -/

namespace Sys2Proof.Machine

/-- skip-if-key-pressed (R214): the key number is the low 4 bits of the value of Vx. -/
def execSkp (x : Reg) (s : State) : Result := .next (s.skipIf (s.keyPressed (lowNibble (s.reg x))))

/-- skip-if-key-not-pressed (R215). -/
def execSknp (x : Reg) (s : State) : Result := .next (s.skipIf (!s.keyPressed (lowNibble (s.reg x))))

/-- wait-for-key Vx (R216): a level test; with no key down PC goes back to the instruction itself, modulo 65536. -/
def execLdVxK (x : Reg) (s : State) : Result :=
  match s.keyLowest with
  | some k => .next (s.setReg x (BitVec.ofNat 8 k.val))
  | none => .next (s.setPc (s.pc - 2))

/-- Vx:=delay-timer (R218). -/
def execLdVxDT (x : Reg) (s : State) : Result := .next (s.setReg x s.dt)

/-- delay-timer:=Vx (R219). -/
def execLdDTVx (x : Reg) (s : State) : Result := .next { s with dt := s.reg x }

/-- sound-timer:=Vx (R220). -/
def execLdSTVx (x : Reg) (s : State) : Result := .next { s with st := s.reg x }

end Sys2Proof.Machine
end

