-- ==== Sys2Proof/Machine/Cycle.lean ====
section
/-! DEFINITION. The events of spec/00_scope.md R9 as operations on the state: the instruction cycle Step, Reset, Tick, Press and
Release, and how one event is chosen. -/

namespace Sys2Proof.Machine

/-- Decode and execute the word just fetched (spec/40_control.md R121): an unknown combination is reported and nothing else
changes (R231), an instruction runs its execute phase. -/
def execWord (w : Word) (s : State) : Result :=
  match decodeWord w with
  | .ok i => exec i s
  | .error _ => .next (s.report w)

/-- The event `Step` (R121): nothing while ERR is nonzero; otherwise one fetch, one decode, one execute. A fetch out of bounds
latches ERR with PC unchanged. -/
def instructionCycle (s : State) : Result :=
  if s.err.isSome then .next s
  else
    match s.fetch with
    | none => raise .addressOutOfBounds s
    | some (w, s') => execWord w s'

/-- A timer's decrement: by one if it is nonzero (spec/44_keypad_timers.md R222). It never wraps (R221). -/
def decrement (t : Byte) : Byte := if t = 0 then 0 else t - 1

/-- The event `Tick` (R222): it acts whatever ERR holds. Under SOUND_GATED the sound timer's decrement needs the delay timer
nonzero before the tick. -/
def State.tick (s : State) : State :=
  { s with
    dt := decrement s.dt
    st := if s.cfg.soundGated && decide (s.dt = 0) then s.st else decrement s.st }

/-- The longest ROM image that fits: 4096 - 0x200 bytes (spec/20_memory.md R69). -/
def maxRomLength : Nat := 3584

/-- The event `Reset(rom)` (spec/70_reset_and_hazards.md R260, R236). The configuration and the environment's side of the
boundary (what it has scheduled, supplied and received) are not the machine's state and stay. -/
def State.afterReset (s : State) (rom : List Byte) : State :=
  let clean : State :=
    { State.reset with
      cfg := s.cfg
      schedule := s.schedule
      rndSupply := s.rndSupply
      rndCount := s.rndCount
      reports := s.reports }
  if rom.length ≤ maxRomLength then clean.storeBytes progBase rom
  else { clean with err := some .romTooLarge }

/-- One event (R9). -/
def applyEvent (e : Event) (s : State) : Result :=
  match e with
  | .reset rom => .next (s.afterReset rom)
  | .step => instructionCycle s
  | .tick => .next s.tick
  | .press k => .next (s.setKey k true)
  | .release k => .next (s.setKey k false)

/-- The next event: the first one the environment has scheduled, a `Step` when it has scheduled none (log entry 1). -/
def nextEvent (s : State) : Result :=
  match s.schedule with
  | [] => applyEvent .step s
  | e :: rest => applyEvent e { s with schedule := rest }

/-- The driver's conventional frame (R271): CYCLES_PER_TICK steps, then one tick. -/
def driverFrame (cyclesPerTick : Nat) : List Event := List.replicate cyclesPerTick .step ++ [.tick]

/-- Where `withFetchWord` lets step fetch: at PC when a whole word is in Memory there, else at the program base. -/
def fetchPlace (s : State) : Word := if inBounds (s.pc.toNat + 1) then s.pc else BitVec.ofNat 16 progBase

/-- The state that fetches and runs the word `w` in its very next step: the word stands at PC, nothing is scheduled before the
step, and the machine is not halted. -/
def State.placeWord (s : State) (w : Word) : State :=
  { s with err := none, schedule := [], pc := fetchPlace s }.storeBytes (fetchPlace s).toNat (bytesOfWord w)

end Sys2Proof.Machine
end

