-- ==== Sys2Proof/Safety.lean ====
section
/-! DEFINITION. The terms claims are stated in: what a good state is, what a change leaves alone, and the pixels a sprite
lights. -/

namespace Sys2Proof.Machine

/-! ## The opcode map -/

/-- The (match, mask) pairs of the opcode map, in its order (spec/30_encoding.md R95). -/
def opcodeRows : List (Word × Word) :=
  [(0x00E0, 0xFFFF), (0x00EE, 0xFFFF), (0x1000, 0xF000), (0x2000, 0xF000), (0x3000, 0xF000), (0x4000, 0xF000)] ++
  [(0x5000, 0xF00F), (0x6000, 0xF000), (0x7000, 0xF000), (0x8000, 0xF00F), (0x8001, 0xF00F), (0x8002, 0xF00F)] ++
  [(0x8003, 0xF00F), (0x8004, 0xF00F), (0x8005, 0xF00F), (0x8006, 0xF00F), (0x8007, 0xF00F), (0x800E, 0xF00F)] ++
  [(0x9000, 0xF00F), (0xA000, 0xF000), (0xB000, 0xF000), (0xC000, 0xF000), (0xD000, 0xF000), (0xE09E, 0xF0FF)] ++
  [(0xE0A1, 0xF0FF), (0xF007, 0xF0FF), (0xF00A, 0xF0FF), (0xF015, 0xF0FF), (0xF018, 0xF0FF), (0xF01E, 0xF0FF)] ++
  [(0xF029, 0xF0FF), (0xF033, 0xF0FF), (0xF055, 0xF0FF), (0xF065, 0xF0FF)]

/-! ## Good states -/

/-- The machine is not halted: no fault has been latched (spec/10_state.md R31). -/
def State.running (s : State) : Prop := s.err = none

/-- The next event of `s` is a `Step`, and `s'` is the state it acts on: `s` itself when nothing is scheduled, or `s` with the
scheduled `Step` taken off. -/
def State.stepNext (s s' : State) : Prop :=
  (s.schedule = [] ∧ s' = s) ∨ ∃ rest, s.schedule = .step :: rest ∧ s' = { s with schedule := rest }

/-- The big-endian instruction word at PC is `w` (spec/20_memory.md R63). -/
def State.wordAtPc (s : State) (w : Word) : Prop :=
  w.toNat = (s.byteAt s.pc.toNat).toNat * 256 + (s.byteAt (s.pc.toNat + 1)).toNat

/-- The invariant of the machine: the parameters meet their constraints (R6), Memory is in canonical form, PC is in the range
R34 derives and every stack entry is an address a call pushed (R34), the stack is no deeper than STACK_LIMIT (R24), and
StackOverflow is latched only where STACK_LIMIT is a number (R235). -/
structure State.Inv (s : State) : Prop where
  cfg_wf : s.cfg.wf = true
  mem_wf : Memory.wf s.cfg s.mem = true
  pc_le : s.pc.toNat ≤ 0x10FE
  stack_le : ∀ r ∈ s.stack, r.toNat ≤ 0x1000
  depth_le : ∀ limit, s.cfg.stackLimit = some limit → s.stack.length ≤ limit
  overflow_limited : s.err = some .stackOverflow → s.cfg.stackLimit ≠ none

/-! ## What a change leaves alone

Each predicate says that `t` is `s` but for the named fields, and that every byte of Memory reads as before where Memory is
not among them. -/

/-- Only general registers may differ. -/
def ChangesOnlyRegs (s t : State) : Prop :=
  t = { s with v := t.v } ∧ ∀ a, t.byteAt a = s.byteAt a

/-- Vx holds the value `r` and nothing else changed. -/
def SetsRegister (s t : State) (x : Reg) (r : Nat) : Prop :=
  (t.reg x).toNat = r ∧ (∀ k, k ≠ x → t.reg k = s.reg k) ∧ ChangesOnlyRegs s t

/-- VF holds the flag `f`, Vx holds the result `r` unless it is VF itself (spec/41_alu.md R141), and nothing else changed. -/
def SetsRegisterAndFlag (s t : State) (x : Reg) (r f : Nat) : Prop :=
  (t.reg 15).toNat = f ∧ (x ≠ 15 → (t.reg x).toNat = r) ∧
    (∀ k, k ≠ x → k ≠ 15 → t.reg k = s.reg k) ∧ ChangesOnlyRegs s t

/-- Only PC may differ. -/
def ChangesOnlyPc (s t : State) : Prop :=
  t = { s with pc := t.pc } ∧ ∀ a, t.byteAt a = s.byteAt a

/-- PC is two further (modulo 65536) exactly when the condition holds, and nothing else changed. -/
def SkipsWhen (s t : State) (taken : Prop) : Prop :=
  (taken → t.pc.toNat = (s.pc.toNat + 2) % 65536) ∧ (¬ taken → t.pc = s.pc) ∧ ChangesOnlyPc s t

/-- Only I and general registers may differ. -/
def ChangesOnlyIndexRegs (s t : State) : Prop :=
  t = { s with i := t.i, v := t.v } ∧ ∀ a, t.byteAt a = s.byteAt a

/-- Only the frame buffer and general registers may differ. -/
def ChangesOnlyFrameRegs (s t : State) : Prop :=
  t = { s with fb := t.fb, v := t.v } ∧ ∀ a, t.byteAt a = s.byteAt a

/-- Only Memory may differ, and there only the `n` bytes from `base`. -/
def ChangesOnlyBytes (s t : State) (base n : Nat) : Prop :=
  t = { s with mem := t.mem } ∧ ∀ a, a < base ∨ base + n ≤ a → t.byteAt a = s.byteAt a

/-- The state a fault leaves: the code latched, nothing else changed (spec/60_exceptions.md R232). -/
def latched (s : State) (f : Fault) : State := { s with err := some f }

/-! ## The pixels a sprite lights -/

/-- Does the sprite of `n` rows at I, with origin column `ox` and row `oy`, have a 1 bit at pixel (px, py)? Row r of the sprite
is the byte at I + r, its bit 7 - c lands at column ox + c, and nothing beyond the right or bottom edge exists as a pixel
(spec/43_display.md R196). -/
def spriteBit (s : State) (ox oy n : Nat) (px : Fin 64) (py : Fin 32) : Bool :=
  decide (ox ≤ px.val ∧ px.val < ox + 8 ∧ oy ≤ py.val ∧ py.val < oy + n) &&
    (s.byteAt (s.i.toNat + (py.val - oy))).getLsbD (7 - (px.val - ox))

end Sys2Proof.Machine
end

