-- ==== Sys2Proof/Certificates/Slice0/Obligations.lean ====
section
/-! DEFINITION. The statements for the provers. Each cites the rule of spec/ it formalises; where a clause rests on a value or an
order that the spec marks as its own decision, its docstring names that decision. -/

open Sys2Proof Sys2Proof.Machine

/-! ## Encoding -/

/-- Decoding the encoding of any well-formed instruction gives it back and leaves the bytes after it (spec/30_encoding.md
R90, R92, R95). The patterns and field positions are the spec's own decisions D1, D2, from general knowledge (log entry 14).
-/
def Obligations.DecodeOfEncodeIsIdentity : Prop :=
  ∀ (i : Instr) (rest : List Byte), i.wf = true → decode (encode i ++ rest) = .ok (i, rest)

/-- A word that decodes has one meaning, and its instruction encodes back to that word: no bit of it is dropped
(spec/30_encoding.md R92, R95). The patterns, field positions and strict match are the spec's own decisions D1 to D3 (log
entry 14). -/
def Obligations.EncodeOfDecodeIsIdentity : Prop :=
  ∀ (w : Word) (i : Instr), decodeWord w = .ok i → i.wf = true ∧ encodeWord i = w

/-- Decoding is the full match of R94 against the match and mask of every row of R95, with the fields of R91; a word that
matches no row is an unknown combination. The patterns, field positions and strict match are the spec's own decisions D1 to
D3 (log entry 14). -/
def Obligations.DecodeFollowsOpcodeMap : Prop :=
  ∀ (w : Word) (x y : Reg) (kk : Byte) (nnn : Addr12) (n : Nat),
    x.val = w.toNat / 256 % 16 → y.val = w.toNat / 16 % 16 → kk.toNat = w.toNat % 256 →
    nnn.toNat = w.toNat % 4096 → n = w.toNat % 16 →
    (w &&& 0xFFFF = 0x00E0 → decodeWord w = .ok .cls) ∧
    (w &&& 0xFFFF = 0x00EE → decodeWord w = .ok .ret) ∧
    (w &&& 0xF000 = 0x1000 → decodeWord w = .ok (.jp nnn)) ∧
    (w &&& 0xF000 = 0x2000 → decodeWord w = .ok (.call nnn)) ∧
    (w &&& 0xF000 = 0x3000 → decodeWord w = .ok (.seImm x kk)) ∧
    (w &&& 0xF000 = 0x4000 → decodeWord w = .ok (.sneImm x kk)) ∧
    (w &&& 0xF00F = 0x5000 → decodeWord w = .ok (.seReg x y)) ∧
    (w &&& 0xF000 = 0x6000 → decodeWord w = .ok (.ldImm x kk)) ∧
    (w &&& 0xF000 = 0x7000 → decodeWord w = .ok (.addImm x kk)) ∧
    (w &&& 0xF00F = 0x8000 → decodeWord w = .ok (.ldReg x y)) ∧
    (w &&& 0xF00F = 0x8001 → decodeWord w = .ok (.orReg x y)) ∧
    (w &&& 0xF00F = 0x8002 → decodeWord w = .ok (.andReg x y)) ∧
    (w &&& 0xF00F = 0x8003 → decodeWord w = .ok (.xorReg x y)) ∧
    (w &&& 0xF00F = 0x8004 → decodeWord w = .ok (.addReg x y)) ∧
    (w &&& 0xF00F = 0x8005 → decodeWord w = .ok (.subReg x y)) ∧
    (w &&& 0xF00F = 0x8006 → decodeWord w = .ok (.shr x y)) ∧
    (w &&& 0xF00F = 0x8007 → decodeWord w = .ok (.subnReg x y)) ∧
    (w &&& 0xF00F = 0x800E → decodeWord w = .ok (.shl x y)) ∧
    (w &&& 0xF00F = 0x9000 → decodeWord w = .ok (.sneReg x y)) ∧
    (w &&& 0xF000 = 0xA000 → decodeWord w = .ok (.ldI nnn)) ∧
    (w &&& 0xF000 = 0xB000 → decodeWord w = .ok (.jpV0 nnn)) ∧
    (w &&& 0xF000 = 0xC000 → decodeWord w = .ok (.rnd x kk)) ∧
    (w &&& 0xF000 = 0xD000 → decodeWord w = .ok (.drw x y n)) ∧
    (w &&& 0xF0FF = 0xE09E → decodeWord w = .ok (.skp x)) ∧
    (w &&& 0xF0FF = 0xE0A1 → decodeWord w = .ok (.sknp x)) ∧
    (w &&& 0xF0FF = 0xF007 → decodeWord w = .ok (.ldVxDT x)) ∧
    (w &&& 0xF0FF = 0xF00A → decodeWord w = .ok (.ldVxK x)) ∧
    (w &&& 0xF0FF = 0xF015 → decodeWord w = .ok (.ldDTVx x)) ∧
    (w &&& 0xF0FF = 0xF018 → decodeWord w = .ok (.ldSTVx x)) ∧
    (w &&& 0xF0FF = 0xF01E → decodeWord w = .ok (.addI x)) ∧
    (w &&& 0xF0FF = 0xF029 → decodeWord w = .ok (.ldF x)) ∧
    (w &&& 0xF0FF = 0xF033 → decodeWord w = .ok (.ldB x)) ∧
    (w &&& 0xF0FF = 0xF055 → decodeWord w = .ok (.dump x)) ∧
    (w &&& 0xF0FF = 0xF065 → decodeWord w = .ok (.load x)) ∧
    ((∀ row ∈ opcodeRows, w &&& row.2 ≠ row.1) → decodeWord w = .error (.unknownCombination w))

/-- The unknown combinations are exactly the words of the family table of spec/30_encoding.md R96, under the strict match of
R94, which is the spec's own decision D3, over patterns that are its decisions D1, D2 (log entry 14). -/
def Obligations.UnknownCombinationsAreTheFamilyTable : Prop :=
  ∀ (w : Word) (family n kk : Nat),
    family = w.toNat / 4096 → n = w.toNat % 16 → kk = w.toNat % 256 →
    ((∀ i, decodeWord w ≠ .ok i) ↔
      (family = 0x0 ∧ w ≠ 0x00E0 ∧ w ≠ 0x00EE) ∨
      (family = 0x5 ∧ n ≠ 0) ∨
      (family = 0x8 ∧ n ∈ [0x8, 0x9, 0xA, 0xB, 0xC, 0xD, 0xF]) ∨
      (family = 0x9 ∧ n ≠ 0) ∨
      (family = 0xE ∧ kk ∉ [0x9E, 0xA1]) ∨
      (family = 0xF ∧ kk ∉ [0x07, 0x0A, 0x15, 0x18, 0x1E, 0x29, 0x33, 0x55, 0x65]))

/-- A few words written out from the patterns of R95 decode to the instructions they stand for; some words next to a pattern
do not decode. The patterns and field positions are the spec's own decisions D1, D2, the strict match its decision D3 (log
entry 14). -/
def Obligations.SampleWordsDecode : Prop :=
  decode [0x8A, 0xB4] = .ok (.addReg 0xA 0xB, []) ∧
  decode [0xDA, 0xB5] = .ok (.drw 0xA 0xB 5, []) ∧
  decode [0x3C, 0x7F] = .ok (.seImm 0xC 0x7F, []) ∧
  decode [0x00, 0xEE] = .ok (.ret, []) ∧
  decode [0xF3, 0x65] = .ok (.load 3, []) ∧
  decode [0x00, 0xFE] = .error (.unknownCombination 0x00FE) ∧
  decode [0x51, 0x21] = .error (.unknownCombination 0x5121)

/-! ## The instruction cycle -/

/-- The cycle of spec/40_control.md R120, R121: a halted machine does nothing; a fetch at PC >= 4095 latches
AddressOutOfBounds with PC unchanged; otherwise PC advances by 2 and the big-endian word there is executed if it decodes, or
reported and skipped if it does not. Halting and PC at a fault are the spec's own decisions D13, D12 (log entries 12, 13),
the form of the report its decision D22 (log entry 3). -/
def Obligations.StepRunsDecodedInstruction : Prop :=
  ∀ (s s' : State) (w : Word), s.stepNext s' →
    (¬ s.running → step s = .next s') ∧
    (s.running → 4095 ≤ s.pc.toNat → step s = .next (latched s' .addressOutOfBounds)) ∧
    (s.running → s.pc.toNat ≤ 4094 → s.wordAtPc w →
      (∀ i, decodeWord w = .ok i → i.wf = true ∧ step s = exec i { s' with pc := s.pc + 2 }) ∧
      ((∀ i, decodeWord w ≠ .ok i) →
        step s = .next { s' with pc := s.pc + 2, reports := s.reports ++ [w] }))

/-- Every step of every state answers a next state: no event, instruction, unknown word or fault condition of the spec stops
the model (spec/40_control.md R121, spec/60_exceptions.md R232). That a fault is latched in ERR and is a next state, never an
outcome of its own, is the spec's own decision D13 as the model takes it (log entry 12). -/
def Obligations.EveryStepAnswersANextState : Prop :=
  ∀ s : State, ∃ t, step s = .next t

/-- A latched fault stays, with the registers, PC, stack, Memory and frame buffer as the fault left them, until a Reset
event: nothing executes, the timers and the keys alone move (spec/60_exceptions.md R241, spec/10_state.md R31). Halting and
the ticks of a halted machine are the spec's own decisions D13, D24 (log entry 12). The reports are an output by its decision
D22 (log entry 3), the schedule is the model's own field (log entry 1). -/
def Obligations.HaltedUntilReset : Prop :=
  ∀ (s t : State) (f : Fault), s.err = some f → step s = .next t →
    (∃ rom rest, s.schedule = .reset rom :: rest) ∨
    t = { s with dt := t.dt, st := t.st, keys := t.keys, schedule := t.schedule }

/-- ERR's codes (spec/10_state.md R31, spec/60_exceptions.md R230; the numbers are the spec's decision D13). -/
def Obligations.FaultCodesOfErr : Prop :=
  ∀ s : State,
    (s.running → s.errCode = 0) ∧
    (latched s .stackUnderflow).errCode = 1 ∧ (latched s .addressOutOfBounds).errCode = 2 ∧
    (latched s .romTooLarge).errCode = 3 ∧ (latched s .stackOverflow).errCode = 4

/-- The sites of AddressOutOfBounds, their exact conditions and the state after (spec/60_exceptions.md R234): fetch and the
four instructions that access Memory, and no other instruction. The effective address is not wrapped, so I = 0xFFFF faults.
Failing rather than wrapping, all-or-nothing and PC at a fault are the spec's own decisions D10, D11, D12 (log entry 13), the
check of clipped sprite rows its decision D15 (log entry 18). -/
def Obligations.AddressOutOfBoundsSites : Prop :=
  (∀ s s' : State, s.stepNext s' → s.running → 4095 ≤ s.pc.toNat →
    step s = .next (latched s' .addressOutOfBounds)) ∧
  (∀ (s : State) (x : Reg), 4095 < s.i.toNat + 2 → exec (.ldB x) s = .next (latched s .addressOutOfBounds)) ∧
  (∀ (s : State) (x : Reg), 4095 < s.i.toNat + x.val → exec (.dump x) s = .next (latched s .addressOutOfBounds)) ∧
  (∀ (s : State) (x : Reg), 4095 < s.i.toNat + x.val → exec (.load x) s = .next (latched s .addressOutOfBounds)) ∧
  (∀ (s : State) (x y : Reg) (n : Nat), 1 ≤ n → 4095 < s.i.toNat + n - 1 →
    exec (.drw x y n) s = .next (latched s .addressOutOfBounds)) ∧
  (∀ (i : Instr) (s t : State), s.running → exec i s = .next t → t.err = some .addressOutOfBounds →
    (∃ x, i = .ldB x ∧ 4095 < s.i.toNat + 2) ∨ (∃ x, i = .dump x ∧ 4095 < s.i.toNat + x.val) ∨
    (∃ x, i = .load x ∧ 4095 < s.i.toNat + x.val) ∨
    (∃ x y n, i = .drw x y n ∧ 1 ≤ n ∧ 4095 < s.i.toNat + n - 1))

/-- StackUnderflow is raised by return on an empty stack and by nothing else; StackOverflow by call at depth STACK_LIMIT,
where that is a number, and by nothing else (spec/60_exceptions.md R233, R235). The limit is the spec's own decision D8 (log
entry 6), the latch and PC at a fault its decisions D13, D12 (log entries 12, 13). -/
def Obligations.StackFaultSites : Prop :=
  (∀ s : State, s.stack = [] → exec .ret s = .next (latched s .stackUnderflow)) ∧
  (∀ (s : State) (nnn : Addr12), s.cfg.stackLimit = some s.stack.length →
    exec (.call nnn) s = .next (latched s .stackOverflow)) ∧
  (∀ (i : Instr) (s t : State), s.running → exec i s = .next t →
    (t.err = some .stackUnderflow → i = .ret ∧ s.stack = []) ∧
    (t.err = some .stackOverflow → (∃ nnn, i = .call nnn) ∧ s.cfg.stackLimit = some s.stack.length))

/-! ## Control transfer -/

/-- return (spec/40_control.md R123): the newest entry becomes PC; on an empty stack StackUnderflow is latched and nothing
else changes, PC staying a + 2. The latch and PC at a fault are the spec's own decisions D13, D12 (log entries 12, 13). -/
def Obligations.ReturnPopsNewestEntry : Prop :=
  (∀ (s : State) (rest : List Word) (r : Word), s.stack = rest ++ [r] →
    exec .ret s = .next { s with pc := r, stack := rest }) ∧
  (∀ s : State, s.stack = [] → exec .ret s = .next (latched s .stackUnderflow))

/-- call addr (spec/40_control.md R125): PC, which is a + 2, is pushed and PC := nnn; at depth STACK_LIMIT StackOverflow is
latched, nothing is pushed and PC stays. The limit is the spec's own decision D8 (log entry 6), the latch and PC at a fault
its decisions D13, D12 (log entries 12, 13). -/
def Obligations.CallPushesPc : Prop :=
  ∀ (s : State) (nnn : Addr12),
    (s.cfg.stackLimit ≠ some s.stack.length →
      ∃ target : Word, target.toNat = nnn.toNat ∧
        exec (.call nnn) s = .next { s with stack := s.stack ++ [s.pc], pc := target }) ∧
    (s.cfg.stackLimit = some s.stack.length → exec (.call nnn) s = .next (latched s .stackOverflow))

/-- A return executed anywhere with the stack a call left resumes after the call and leaves the stack as it was before it
(spec/40_control.md R123, R125). -/
def Obligations.CallThenReturnResumes : Prop :=
  ∀ (s t u : State) (nnn : Addr12), s.running → exec (.call nnn) s = .next t → t.running → u.stack = t.stack →
    exec .ret u = .next { u with pc := s.pc, stack := s.stack }

/-- jump addr and jump-with-offset addr (spec/40_control.md R124, R126): PC := nnn, and PC := nnn + V0 as an unmasked sum that
never reaches 65536; nothing else changes. -/
def Obligations.JumpsLoadPc : Prop :=
  ∀ (s : State) (nnn : Addr12),
    (∃ t, exec (.jp nnn) s = .next t ∧ t.pc.toNat = nnn.toNat ∧ ChangesOnlyPc s t) ∧
    (∃ t, exec (.jpV0 nnn) s = .next t ∧ t.pc.toNat = nnn.toNat + (s.reg 0).toNat ∧ ChangesOnlyPc s t)

/-- The four register skips (spec/40_control.md R127 to R130). That the addition to PC is modulo 65536 is the spec's own
decision D19 (log entry 20). -/
def Obligations.RegisterSkips : Prop :=
  ∀ (s : State) (x y : Reg) (kk : Byte),
    (∃ t, exec (.seImm x kk) s = .next t ∧ SkipsWhen s t (s.reg x = kk)) ∧
    (∃ t, exec (.sneImm x kk) s = .next t ∧ SkipsWhen s t (s.reg x ≠ kk)) ∧
    (∃ t, exec (.seReg x y) s = .next t ∧ SkipsWhen s t (s.reg x = s.reg y)) ∧
    (∃ t, exec (.sneReg x y) s = .next t ∧ SkipsWhen s t (s.reg x ≠ s.reg y))

/-! ## Register datapath -/

/-- set Vx,imm and add Vx,imm (spec/41_alu.md R142, R143): the sum is modulo 256 and no flag is written; Vx alone changes, VF
only as Vx. -/
def Obligations.SetAndAddImmediate : Prop :=
  ∀ (s : State) (x : Reg) (kk : Byte),
    (∃ t, exec (.ldImm x kk) s = .next t ∧ SetsRegister s t x kk.toNat) ∧
    (∃ t, exec (.addImm x kk) s = .next t ∧ SetsRegister s t x (((s.reg x).toNat + kk.toNat) % 256))

/-- set Vx,Vy, OR, AND and XOR (spec/41_alu.md R146 to R149): Vx alone changes. That none of the four writes VF, unless x = 15, is
the spec's own decision D25. -/
def Obligations.CopyAndLogic : Prop :=
  ∀ (s : State) (x y : Reg),
    (∃ t, exec (.ldReg x y) s = .next t ∧ SetsRegister s t x (s.reg y).toNat) ∧
    (∃ t, exec (.orReg x y) s = .next t ∧ SetsRegister s t x ((s.reg x).toNat ||| (s.reg y).toNat)) ∧
    (∃ t, exec (.andReg x y) s = .next t ∧ SetsRegister s t x ((s.reg x).toNat &&& (s.reg y).toNat)) ∧
    (∃ t, exec (.xorReg x y) s = .next t ∧ SetsRegister s t x ((s.reg x).toNat ^^^ (s.reg y).toNat))

/-- add, sub and subn with their flag, for every x and y: with x = 15 VF ends as the flag, with y = 15 the old VF is the operand
(spec/41_alu.md R150 to R152; the write order is the spec's decision D14). -/
def Obligations.AddSubtractWithFlag : Prop :=
  ∀ (s : State) (x y : Reg) (p q : Nat), p = (s.reg x).toNat → q = (s.reg y).toNat →
    (∃ t, exec (.addReg x y) s = .next t ∧
      SetsRegisterAndFlag s t x ((p + q) % 256) (if p + q > 255 then 1 else 0)) ∧
    (∃ t, exec (.subReg x y) s = .next t ∧
      SetsRegisterAndFlag s t x ((p + 256 - q) % 256) (if p ≥ q then 1 else 0)) ∧
    (∃ t, exec (.subnReg x y) s = .next t ∧
      SetsRegisterAndFlag s t x ((q + 256 - p) % 256) (if q ≥ p then 1 else 0))

/-- The shifts, for every x and every value of the ignored y field (spec/41_alu.md R153, R154; the write order is the spec's
decision D14). -/
def Obligations.ShiftsMoveBoundaryBit : Prop :=
  ∀ (s : State) (x y : Reg) (p : Nat), p = (s.reg x).toNat →
    (∃ t, exec (.shr x y) s = .next t ∧ SetsRegisterAndFlag s t x (p / 2) (p % 2)) ∧
    (∃ t, exec (.shl x y) s = .next t ∧ SetsRegisterAndFlag s t x (2 * p % 256) (p / 128))

/-- random Vx,mask (spec/41_alu.md R155): the byte on the random input AND the mask, whatever the byte is; a byte the
environment supplied is consumed, and without one the byte is the free value (log entry 2). -/
def Obligations.RandomIsMaskedInput : Prop :=
  ∀ (s : State) (x : Reg) (kk b : Byte),
    (∀ rest, s.rndSupply = b :: rest →
      ∃ t, exec (.rnd x kk) s = .next t ∧ t.reg x = b &&& kk ∧ (∀ k, k ≠ x → t.reg k = s.reg k) ∧
        t = { s with v := t.v, rndSupply := rest, rndCount := s.rndCount + 1 } ∧ ∀ a, t.byteAt a = s.byteAt a) ∧
    (s.rndSupply = [] →
      ∃ t, exec (.rnd x kk) s = .next t ∧ t.reg x = Config.randomByte s.rndCount &&& kk ∧
        (∀ k, k ≠ x → t.reg k = s.reg k) ∧
        t = { s with v := t.v, rndCount := s.rndCount + 1 } ∧ ∀ a, t.byteAt a = s.byteAt a)

/-! ## Index register and memory -/

/-- set-index (spec/42_index_memory.md R170): I holds the 12-bit address, zero-extended, and nothing else changes. -/
def Obligations.SetIndexLoadsAddress : Prop :=
  ∀ (s : State) (nnn : Addr12),
    ∃ t, exec (.ldI nnn) s = .next t ∧ t.i.toNat = nnn.toNat ∧ ChangesOnlyIndexRegs s t ∧ t.v = s.v

/-- index += Vx and font-address (spec/42_index_memory.md R171, R172). That VF keeps its value without overflow is the spec's own
decision D18, that only the low 4 bits of Vx count is its decision D16. -/
def Obligations.IndexAddAndFontAddress : Prop :=
  ∀ (s : State) (x : Reg) (sum : Nat), sum = s.i.toNat + (s.reg x).toNat →
    (∃ t, exec (.addI x) s = .next t ∧ t.i.toNat = sum % 65536 ∧ ChangesOnlyIndexRegs s t ∧
      (sum > 0x0FFF → t.reg 15 = 1) ∧ (sum ≤ 0x0FFF → t.reg 15 = s.reg 15) ∧
      ∀ k, k ≠ 15 → t.reg k = s.reg k) ∧
    (∃ t, exec (.ldF x) s = .next t ∧ ChangesOnlyIndexRegs s t ∧ t.v = s.v ∧
      (s.cfg.wf = true → t.i.toNat = s.cfg.fontBase + 5 * ((s.reg x).toNat % 16)))

/-- store-BCD (spec/42_index_memory.md R173): hundreds, tens and ones at I, I+1, I+2 and no other byte; out of bounds nothing
is written. The fault without any write is the spec's own decisions D10 to D12 (log entry 13), that I is kept its decision
D26 (log entry 17). -/
def Obligations.StoreBcdDigits : Prop :=
  ∀ (s : State) (x : Reg) (p : Nat), p = (s.reg x).toNat → Memory.wf s.cfg s.mem = true →
    (s.indexAddr 2 ≤ 4095 →
      ∃ t, exec (.ldB x) s = .next t ∧ ChangesOnlyBytes s t (s.indexAddr 0) 3 ∧
        (t.byteAt (s.indexAddr 0)).toNat = p / 100 ∧ (t.byteAt (s.indexAddr 1)).toNat = p / 10 % 10 ∧
        (t.byteAt (s.indexAddr 2)).toNat = p % 10) ∧
    (4095 < s.indexAddr 2 → exec (.ldB x) s = .next (latched s .addressOutOfBounds))

/-- register-dump (spec/42_index_memory.md R174): V0 through Vx at I..I+x and no other byte; out of bounds nothing is
written. The fault without any write is the spec's own decisions D10 to D12 (log entry 13), that I is kept its decision D26
(log entry 17). -/
def Obligations.DumpStoresRegisters : Prop :=
  ∀ (s : State) (x : Reg), Memory.wf s.cfg s.mem = true →
    (s.indexAddr x.val ≤ 4095 →
      ∃ t, exec (.dump x) s = .next t ∧ ChangesOnlyBytes s t (s.indexAddr 0) (x.val + 1) ∧
        ∀ k : Reg, k.val ≤ x.val → t.byteAt (s.indexAddr k.val) = s.reg k) ∧
    (4095 < s.indexAddr x.val → exec (.dump x) s = .next (latched s .addressOutOfBounds))

/-- register-load (spec/42_index_memory.md R175): V0 through Vx from I..I+x and no other register; out of bounds no register
is written. The fault without any write is the spec's own decisions D10 to D12 (log entry 13), that I is kept its decision
D26 (log entry 17). -/
def Obligations.LoadReadsRegisters : Prop :=
  ∀ (s : State) (x : Reg),
    (s.indexAddr x.val ≤ 4095 →
      ∃ t, exec (.load x) s = .next t ∧ ChangesOnlyRegs s t ∧
        (∀ k : Reg, k.val ≤ x.val → t.reg k = s.byteAt (s.indexAddr k.val)) ∧
        ∀ k : Reg, x.val < k.val → t.reg k = s.reg k) ∧
    (4095 < s.indexAddr x.val → exec (.load x) s = .next (latched s .addressOutOfBounds))

/-- A dump is seen by every later fetch (spec/20_memory.md R74): the word fetched from two stored bytes is the two registers
stored there, high byte first. -/
def Obligations.DumpedCodeIsFetched : Prop :=
  ∀ (s t : State) (x k k' : Reg), Memory.wf s.cfg s.mem = true → s.running → exec (.dump x) s = .next t → t.running →
    k'.val = k.val + 1 → k'.val ≤ x.val →
    ∀ (u : State) (w : Word), u.mem = t.mem → u.cfg = t.cfg → u.pc.toNat = s.indexAddr k.val → u.wordAtPc w →
      w.toNat = (s.reg k).toNat * 256 + (s.reg k').toNat ∧
        u.fetch = some (w, { u with pc := u.pc + 2 })

/-! ## Display -/

/-- clear-screen (spec/43_display.md R195): every pixel is 0 and nothing else changes. -/
def Obligations.ClearScreenClearsEveryPixel : Prop :=
  ∀ s : State, ∃ t, exec .cls s = .next t ∧ (∀ px py, t.fb.get px py = false) ∧ ChangesOnlyFrameRegs s t ∧ t.v = s.v

/-- draw (spec/43_display.md R196): each pixel is XORed with the sprite's bit there, clipped at the right and bottom edges;
VF is 1 if some pixel went from 1 to 0 and 0 otherwise; out of bounds nothing changes. With n = 0 no byte is read. That Vx,
Vy and I are read before VF is written, and that the bytes of clipped rows are checked, is the spec's own decision D15 (log
entry 18); the fault without any write is its decisions D10 to D12 (log entry 13), that I is kept its decision D26 (log entry
17). -/
def Obligations.DrawXorsClippedSprite : Prop :=
  ∀ (s : State) (x y : Reg) (n ox oy : Nat), ox = (s.reg x).toNat % 64 → oy = (s.reg y).toNat % 32 →
    (n = 0 ∨ s.i.toNat + n - 1 ≤ 4095 →
      ∃ t, exec (.drw x y n) s = .next t ∧ ChangesOnlyFrameRegs s t ∧
        (∀ px py, t.fb.get px py = (s.fb.get px py ^^ spriteBit s ox oy n px py)) ∧
        ((∃ px py, s.fb.get px py = true ∧ t.fb.get px py = false) → t.reg 15 = 1) ∧
        ((∀ px py, s.fb.get px py = true → t.fb.get px py = true) → t.reg 15 = 0) ∧
        ∀ k, k ≠ 15 → t.reg k = s.reg k) ∧
    (1 ≤ n → 4095 < s.i.toNat + n - 1 → exec (.drw x y n) s = .next (latched s .addressOutOfBounds))

/-- The properties of draw that spec/43_display.md R199 states: (a) the same sprite at the same place twice restores the
frame buffer, with VF 1 if the first draw turned a pixel on; (b) VF is 1 exactly if a pixel went from 1 to 0; (c) glyph 0 at
the origin of a clear screen lights its fourteen pixels and leaves VF 0. -/
def Obligations.DrawTwiceRestoresAndGlyphZero : Prop :=
  (∀ (s t u : State) (x y : Reg) (n : Nat), x ≠ 15 → y ≠ 15 →
    exec (.drw x y n) s = .next t → exec (.drw x y n) t = .next u →
    u.fb = s.fb ∧ ((∃ px py, s.fb.get px py = false ∧ t.fb.get px py = true) → u.reg 15 = 1)) ∧
  (∀ (s t : State) (x y : Reg) (n : Nat), s.running → exec (.drw x y n) s = .next t → t.running →
    (t.reg 15 = 1 ↔ ∃ px py, s.fb.get px py = true ∧ t.fb.get px py = false)) ∧
  (∀ (s : State) (x y : Reg), s.fb = Frame.clear → s.reg x = 0 → s.reg y = 0 → s.i.toNat + 4 ≤ 4095 →
    s.bytesAt s.i.toNat 5 = [0xF0, 0x90, 0x90, 0x90, 0xF0] →
    ∃ t, exec (.drw x y 5) s = .next t ∧ t.reg 15 = 0 ∧
      ∀ px py, t.fb.get px py = true ↔
        (px.val, py.val) ∈ [(0, 0), (1, 0), (2, 0), (3, 0), (0, 1), (3, 1), (0, 2), (3, 2), (0, 3), (3, 3),
          (0, 4), (1, 4), (2, 4), (3, 4)])

/-- The read-out (spec/43_display.md R193): 2048 bytes, byte 64*y + x being 0x00 or 0x01 for pixel (x, y). The environment cannot
write the frame buffer: a tick and a key event leave it. -/
def Obligations.ReadOutIsRowMajor : Prop :=
  (∀ (fb : Frame) (px : Fin 64) (py : Fin 32),
    fb.pixels.length = 2048 ∧
    fb.pixels[64 * py.val + px.val]? = some (if fb.get px py then 0x01 else 0x00)) ∧
  ∀ (s t : State) (e : Event) (rest : List Event), s.schedule = e :: rest →
    (e = .tick ∨ ∃ k, e = .press k ∨ e = .release k) → step s = .next t → t.fb = s.fb

/-! ## Keypad and timers -/

/-- The key skips (spec/44_keypad_timers.md R214, R215): the key is the low 4 bits of the value of Vx, the spec's own
decision D17 (log entry 16). That the addition to PC is modulo 65536 is its decision D19 (log entry 20). -/
def Obligations.KeySkips : Prop :=
  ∀ (s : State) (x : Reg) (key : Key), key.val = (s.reg x).toNat % 16 →
    (∃ t, exec (.skp x) s = .next t ∧ SkipsWhen s t (s.keyPressed key = true)) ∧
    (∃ t, exec (.sknp x) s = .next t ∧ SkipsWhen s t (s.keyPressed key = false))

/-- wait-for-key (spec/44_keypad_timers.md R216): the lowest key down goes to Vx and PC stays a + 2; with every key up PC
goes back by 2, so that the whole step changes nothing and the same instruction is fetched again: a busy-wait. The rewind
form and the level test are the spec's own choice (decision D23, conflicts C3, C4; log entry 19), and PC - 2 is modulo 65536
by its decision D19 (log entry 20). -/
def Obligations.WaitForKeyStoresLowestOrRewinds : Prop :=
  (∀ (s : State) (x : Reg),
    (∀ key : Key, s.keyPressed key = true → (∀ j, j < key → s.keyPressed j = false) →
      ∃ t, exec (.ldVxK x) s = .next t ∧ SetsRegister s t x key.val) ∧
    ((∀ key : Key, s.keyPressed key = false) →
      ∃ t, exec (.ldVxK x) s = .next t ∧ t.pc = s.pc - 2 ∧ ChangesOnlyPc s t)) ∧
  ∀ (s s' : State) (w : Word) (x : Reg), s.stepNext s' → s.running → s.pc.toNat ≤ 4094 → s.wordAtPc w →
    decodeWord w = .ok (.ldVxK x) → (∀ key : Key, s.keyPressed key = false) → step s = .next s'

/-- The timer moves (spec/44_keypad_timers.md R218 to R220), with the sound output level that follows ST. The level
sound_active = (ST != 0) is the spec's own decision D31 (log entry 24). -/
def Obligations.TimerMoves : Prop :=
  ∀ (s : State) (x : Reg),
    (∃ t, exec (.ldVxDT x) s = .next t ∧ SetsRegister s t x s.dt.toNat) ∧
    exec (.ldDTVx x) s = .next { s with dt := s.reg x } ∧
    (∃ t, exec (.ldSTVx x) s = .next t ∧ t = { s with st := s.reg x } ∧ (t.soundActive = true ↔ s.reg x ≠ 0))

/-! ## Events -/

/-- The event Tick (spec/44_keypad_timers.md R222), whatever ERR holds: each timer goes down by one if it is nonzero; under
SOUND_GATED the sound timer only when DT was nonzero. The gating is the spec's own decision D9 (log entry 6), the tick of a
halted machine its decision D24 (log entry 12). -/
def Obligations.TickCountsDown : Prop :=
  ∀ (s : State) (rest : List Event), s.schedule = .tick :: rest →
    ∃ t, step s = .next t ∧ t = { s with schedule := rest, dt := t.dt, st := t.st } ∧
      t.dt.toNat = s.dt.toNat - 1 ∧
      (s.cfg.soundGated = true ∧ s.dt = 0 → t.st = s.st) ∧
      (s.cfg.soundGated = false ∨ s.dt ≠ 0 → t.st.toNat = s.st.toNat - 1)

/-- The events Press(k) and Release(k) (spec/44_keypad_timers.md R211): they set and clear their key and change nothing else. -/
def Obligations.PressAndReleaseSetKeys : Prop :=
  ∀ (s : State) (rest : List Event) (k : Key),
    (s.schedule = .press k :: rest →
      ∃ t, step s = .next t ∧ t = { s with schedule := rest, keys := t.keys } ∧ t.keyPressed k = true ∧
        ∀ j, j ≠ k → t.keyPressed j = s.keyPressed j) ∧
    (s.schedule = .release k :: rest →
      ∃ t, step s = .next t ∧ t = { s with schedule := rest, keys := t.keys } ∧ t.keyPressed k = false ∧
        ∀ j, j ≠ k → t.keyPressed j = s.keyPressed j)

/-- The keypad changes only by Press, Release and Reset: no instruction writes it (spec/44_keypad_timers.md R211,
spec/10_state.md R29). -/
def Obligations.KeysChangeOnlyByEvents : Prop :=
  ∀ (s t : State) (k : Key), step s = .next t → t.keyPressed k ≠ s.keyPressed k →
    ∃ e rest, s.schedule = e :: rest ∧ (e = .press k ∨ e = .release k ∨ ∃ rom, e = .reset rom)

/-- The event Reset(rom) (spec/70_reset_and_hazards.md R260, spec/20_memory.md R69, spec/60_exceptions.md R236): the reset
values of R33, with the ROM at 0x200 when it fits and otherwise no ROM byte and ERR = RomTooLarge. PC, the places of font and
ROM and glyph 0 are the source's; the other values are the spec's own decisions D6 and D7 (log entries 10, 11), glyphs 1 to F
its decision D5, from general knowledge (log entry 7), the form of ERR its decision D13 (log entry 12), and loading only at
reset, with the rest reset after an oversize ROM, its decision D28. That the parameters, the schedule, the random supply and
count, and the reports stay is the model's own choice (log entry 21). -/
def Obligations.ResetEventLoadsRom : Prop :=
  ∀ (s : State) (rom : List Byte) (rest : List Event), s.cfg.wf = true → s.schedule = .reset rom :: rest →
    ∃ t, step s = .next t ∧
      t = { State.reset with
        mem := t.mem
        err := t.err
        cfg := s.cfg
        schedule := rest
        rndSupply := s.rndSupply
        rndCount := s.rndCount
        reports := s.reports } ∧
      (∀ (d r : Nat), d < 16 → r < 5 →
        some (t.byteAt (s.cfg.fontBase + 5 * d + r)) = (fontGlyphs[d]?).bind (fun rows => rows[r]?)) ∧
      (∀ a, a < 0x200 → a < s.cfg.fontBase ∨ s.cfg.fontBase + 80 ≤ a → t.byteAt a = 0) ∧
      (rom.length ≤ 3584 →
        t.err = none ∧ (∀ k (h : k < rom.length), t.byteAt (0x200 + k) = rom[k]) ∧
        ∀ a, 0x200 + rom.length ≤ a → t.byteAt a = 0) ∧
      (3584 < rom.length → t.err = some .romTooLarge ∧ ∀ a, 0x200 ≤ a → t.byteAt a = 0)

/-- What reset leaves (spec/10_state.md R33, spec/20_memory.md R68): PC = 0x200 and glyph 0 are the source's; zero registers,
timers, frame buffer and other bytes, the empty stack and the keys up are the spec's own decisions D6 and D7 (log entries 10,
11), ERR = 0 its decision D13 (log entry 12), glyphs 1 to F its decision D5 (log entry 7), the font at address 0 its decision
D4 (log entry 6). -/
def Obligations.ResetStateValues : Prop :=
  State.reset.pc = 0x0200 ∧ State.reset.i = 0 ∧ State.reset.stack = [] ∧ State.reset.dt = 0 ∧ State.reset.st = 0 ∧
  State.reset.errCode = 0 ∧ State.reset.soundActive = false ∧
  (∀ k, State.reset.reg k = 0) ∧ (∀ k, State.reset.keyPressed k = false) ∧
  (∀ px py, State.reset.fb.get px py = false) ∧
  State.reset.bytesAt 0 40 =
    [0xF0, 0x90, 0x90, 0x90, 0xF0, 0x20, 0x60, 0x20, 0x20, 0x70, 0xF0, 0x10, 0xF0, 0x80, 0xF0, 0xF0, 0x10, 0xF0, 0x10, 0xF0,
     0x90, 0x90, 0xF0, 0x10, 0x10, 0xF0, 0x80, 0xF0, 0x10, 0xF0, 0xF0, 0x80, 0xF0, 0x90, 0xF0, 0xF0, 0x10, 0x20, 0x40, 0x40] ∧
  State.reset.bytesAt 40 40 =
    [0xF0, 0x90, 0xF0, 0x90, 0xF0, 0xF0, 0x90, 0xF0, 0x10, 0xF0, 0xF0, 0x90, 0xF0, 0x90, 0x90, 0xE0, 0x90, 0xE0, 0x90, 0xE0,
     0xF0, 0x80, 0x80, 0x80, 0xF0, 0xE0, 0x90, 0x90, 0x90, 0xE0, 0xF0, 0x80, 0xF0, 0x80, 0xF0, 0xF0, 0x80, 0xF0, 0x80, 0x80] ∧
  ∀ a, 80 ≤ a → State.reset.byteAt a = 0

/-! ## Whole-machine rules -/

/-- The invariant of the machine holds at reset (spec/10_state.md R33, R34). The empty stack is the spec's own decision D6
(log entry 10), the default parameters its decisions D4, D8, D9 (log entry 6), memory with nothing listed the model's form of
the reset contents (log entries 4, 11). -/
def Obligations.ResetMeetsInvariant : Prop := State.reset.Inv

/-- Every step keeps the invariant: Memory stays canonical, PC stays at most 0x10FE and stack entries at most 0x1000
(spec/10_state.md R34), the stack stays within STACK_LIMIT (R24), the parameters stay legal (spec/00_scope.md R6). The stack
limit is the spec's own decision D8 (log entry 6), the canonical form the model's (log entry 4). -/
def Obligations.StepKeepsInvariant : Prop :=
  ∀ s t : State, s.Inv → step s = .next t → t.Inv

/-- The access summary (spec/10_state.md R36): the state each instruction may write, for every instruction; all else is
unchanged by it. That I and VF are kept where R36 leaves a blank rests on the spec's own decisions D18, D25, D26 (log entry
17). The reports, an output, are the spec's own decision D22 (log entry 3), the random input its decision D20 (log entry 2),
the schedule and the parameters the model's own fields (log entries 1, 5). -/
def Obligations.ExecWritesOnlyAccessSummary : Prop :=
  ∀ (i : Instr) (s t : State), exec i s = .next t →
    t.keys = s.keys ∧ t.cfg = s.cfg ∧ t.schedule = s.schedule ∧ t.reports = s.reports ∧
    (t.i ≠ s.i → (∃ nnn, i = .ldI nnn) ∨ (∃ x, i = .addI x) ∨ ∃ x, i = .ldF x) ∧
    (t.stack ≠ s.stack → i = .ret ∨ ∃ nnn, i = .call nnn) ∧
    (t.dt ≠ s.dt → ∃ x, i = .ldDTVx x) ∧
    (t.st ≠ s.st → ∃ x, i = .ldSTVx x) ∧
    (t.mem ≠ s.mem → (∃ x, i = .ldB x) ∨ ∃ x, i = .dump x) ∧
    (t.fb ≠ s.fb → i = .cls ∨ ∃ x y n, i = .drw x y n) ∧
    (t.rndSupply ≠ s.rndSupply ∨ t.rndCount ≠ s.rndCount → ∃ x kk, i = .rnd x kk) ∧
    (t.err ≠ s.err → i = .ret ∨ (∃ nnn, i = .call nnn) ∨ (∃ x, i = .ldB x) ∨ (∃ x, i = .dump x) ∨
      (∃ x, i = .load x) ∨ ∃ x y n, i = .drw x y n) ∧
    (t.pc ≠ s.pc → i = .ret ∨ (∃ nnn, i = .jp nnn ∨ i = .call nnn ∨ i = .jpV0 nnn) ∨
      (∃ x kk, i = .seImm x kk ∨ i = .sneImm x kk) ∨ (∃ x y, i = .seReg x y ∨ i = .sneReg x y) ∨
      ∃ x, i = .skp x ∨ i = .sknp x ∨ i = .ldVxK x) ∧
    (∀ k, k ≠ 15 → t.reg k ≠ s.reg k →
      (∃ kk, i = .ldImm k kk ∨ i = .addImm k kk ∨ i = .rnd k kk) ∨
      (∃ y, i = .ldReg k y ∨ i = .orReg k y ∨ i = .andReg k y ∨ i = .xorReg k y ∨ i = .addReg k y ∨ i = .subReg k y ∨
        i = .subnReg k y ∨ i = .shr k y ∨ i = .shl k y) ∨
      i = .ldVxDT k ∨ i = .ldVxK k ∨ ∃ x, i = .load x ∧ k.val ≤ x.val)

/-- The list of flag writers is complete (spec/10_state.md R35): an instruction that changes VF is one of the seven, and then
leaves 0x00 or 0x01, or it writes Vx with x = 15. That the logic forms keep VF is the spec's own decision D25 (log entry 17),
that the flag is what VF ends as with x = 15 its decision D14 (log entry 15). -/
def Obligations.OnlyFlagWritersChangeVf : Prop :=
  ∀ (i : Instr) (s t : State), exec i s = .next t → t.reg 15 ≠ s.reg 15 →
    ((t.reg 15 = 0 ∨ t.reg 15 = 1) ∧
      ((∃ x y, i = .addReg x y ∨ i = .subReg x y ∨ i = .subnReg x y ∨ i = .shr x y ∨ i = .shl x y) ∨
        (∃ x, i = .addI x) ∨ ∃ x y n, i = .drw x y n)) ∨
    (∃ kk, i = .ldImm 15 kk ∨ i = .addImm 15 kk ∨ i = .rnd 15 kk) ∨
    (∃ y, i = .ldReg 15 y ∨ i = .orReg 15 y ∨ i = .andReg 15 y ∨ i = .xorReg 15 y) ∨
    i = .ldVxDT 15 ∨ i = .ldVxK 15 ∨ i = .load 15

/-- Nothing the machine does depends on the sound timer or on the reports emitted: two states that differ only there step to
states that differ only there (spec/10_state.md R26 "No instruction reads it", spec/60_exceptions.md R231). That a report is
an output the machine neither stores nor reads is the spec's own decision D22, and keeping the stream in a field is the
model's form of it (log entry 3). -/
def Obligations.SoundTimerAndReportsAreUnread : Prop :=
  ∀ (s t : State) (st' : Byte) (reports' : List Word), step s = .next t →
    ∃ (st'' : Byte) (reports'' : List Word),
      step { s with st := st', reports := reports' } = .next { t with st := st'', reports := reports'' }

/-- A jump to its own address is quiescent (spec/70_reset_and_hazards.md R272): a step there changes nothing. That this is
the end of a run is the spec's own decision D32. -/
def Obligations.SelfJumpChangesNothing : Prop :=
  ∀ (s s' : State) (w : Word), s.stepNext s' → s.running → s.wordAtPc w → s.pc.toNat < 4095 →
    w.toNat = 0x1000 + s.pc.toNat → step s = .next s'
end

