-- ==== Sys2Proof/Laws/Display.lean ====
section
/-! SUPPORT. The frame buffer: a pixel read after a flip or a clear, and frame buffers compared pixel by pixel. -/

namespace Sys2Proof.Machine

@[simp] theorem Frame.get_clear (x : Fin 64) (y : Fin 32) : Frame.get Frame.clear x y = false := by
  simp [Frame.get, Frame.clear]

/-- A flip inverts its own pixel and no other (R191). -/
theorem Frame.get_flip (fb : Frame) (x x' : Fin 64) (y y' : Fin 32) :
    (Frame.flip fb x y).get x' y' = if x' = x ∧ y' = y then !fb.get x' y' else fb.get x' y' := by
  by_cases hy : y' = y
  · subst hy
    by_cases hx : x' = x
    · subst hx; simp [Frame.get, Frame.flip]
    · have : ¬ (x'.val = x.val) := fun h => hx (Fin.ext h)
      simp [Frame.get, Frame.flip, hx, this]
  · have : ¬ (y.val = y'.val) := fun h => hy (Fin.ext h.symm)
    simp [Frame.get, Frame.flip, hy, this]

/-- Frame buffers whose pixels agree are equal. -/
theorem Frame.ext_get {fb fb' : Frame} (h : ∀ x y, Frame.get fb x y = Frame.get fb' x y) : fb = fb' := by
  apply Vector.ext
  intro r hr
  apply BitVec.eq_of_getLsbD_eq
  intro c hc
  exact h ⟨c, hc⟩ ⟨r, hr⟩

/-- One sprite bit: its pixel is inverted if the bit is 1 and the column is on the screen; nothing else changes. -/
theorem drawBit_get (y : Fin 32) (px : Nat) (on : Bool) (d : Drawing) (x' : Fin 64) (y' : Fin 32) :
    (drawBit y px on d).1.get x' y' = (d.1.get x' y' ^^ (on && decide (x'.val = px ∧ y' = y))) := by
  unfold drawBit
  split
  · next h =>
    cases on
    · simp
    · simp only [if_true, Frame.get_flip, Fin.ext_iff, Bool.true_and]
      by_cases hc : x'.val = px ∧ y'.val = y.val <;> simp [hc]
  · next h =>
    have : ¬ (x'.val = px) := by omega
    simp [this]

/-- One sprite bit: a collision is a 1 bit on the screen over a pixel that was on. -/
theorem drawBit_hit (y : Fin 32) (px : Nat) (on : Bool) (d : Drawing) :
    (drawBit y px on d).2 = true ↔
      d.2 = true ∨ (on = true ∧ ∃ x' : Fin 64, x'.val = px ∧ d.1.get x' y = true) := by
  unfold drawBit
  split
  · next h =>
    cases on
    · simp
    · simp only [if_true, Bool.or_eq_true, true_and]
      refine or_congr_right ⟨fun hg => ⟨⟨px, h⟩, rfl, hg⟩, ?_⟩
      rintro ⟨x', rfl, hg⟩
      exact hg
  · next h =>
    refine ⟨Or.inl, fun hd => hd.resolve_right ?_⟩
    rintro ⟨-, x', hx, -⟩
    omega

/-- The first `k` bits of a sprite row, as the draw engine's fold takes them. -/
def drawBits (y : Fin 32) (ox : Nat) (byte : Byte) (k : Nat) (d : Drawing) : Drawing :=
  (List.range k).foldl (fun d c => drawBit y (ox + c) (byte.getLsbD (7 - c)) d) d

theorem drawBits_succ (y : Fin 32) (ox : Nat) (byte : Byte) (k : Nat) (d : Drawing) :
    drawBits y ox byte (k + 1) d = drawBit y (ox + k) (byte.getLsbD (7 - k)) (drawBits y ox byte k d) := by
  simp [drawBits, List.range_succ]

theorem drawBits_get (y : Fin 32) (ox : Nat) (byte : Byte) (k : Nat) (d : Drawing) (x' : Fin 64) (y' : Fin 32) :
    (drawBits y ox byte k d).1.get x' y' =
      (d.1.get x' y' ^^
        (decide (y' = y ∧ ox ≤ x'.val ∧ x'.val < ox + k) && byte.getLsbD (7 - (x'.val - ox)))) := by
  induction k with
  | zero =>
    have : ¬ (ox ≤ x'.val ∧ x'.val < ox + 0) := by omega
    simp only [this, and_false, decide_false, Bool.false_and, Bool.xor_false]
    rfl
  | succ k ih =>
    rw [drawBits_succ, drawBit_get, ih]
    by_cases hy : y' = y
    · by_cases hk : x'.val = ox + k
      · have h1 : ¬ (x'.val < ox + k) := by omega
        have h2 : ox ≤ x'.val ∧ x'.val < ox + (k + 1) := by omega
        simp [hy, hk]
      · have : (ox ≤ x'.val ∧ x'.val < ox + (k + 1)) ↔ (ox ≤ x'.val ∧ x'.val < ox + k) := by omega
        simp [hy, hk, this]
    · simp [hy]

theorem drawBits_hit (y : Fin 32) (ox : Nat) (byte : Byte) (k : Nat) (d : Drawing) :
    (drawBits y ox byte k d).2 = true ↔
      d.2 = true ∨ ∃ x' : Fin 64, ox ≤ x'.val ∧ x'.val < ox + k ∧
        byte.getLsbD (7 - (x'.val - ox)) = true ∧ d.1.get x' y = true := by
  induction k with
  | zero =>
    refine ⟨Or.inl, fun hd => hd.resolve_right ?_⟩
    rintro ⟨x', h1, h2, -⟩
    omega
  | succ k ih =>
    rw [drawBits_succ, drawBit_hit, ih]
    constructor
    · rintro ((hd | ⟨x', h1, h2, h3, h4⟩) | ⟨hon, x', hx, hg⟩)
      · exact .inl hd
      · exact .inr ⟨x', h1, by omega, h3, h4⟩
      · rw [drawBits_get] at hg
        have h1 : ¬ (x'.val < ox + k) := by omega
        have h3 : x'.val - ox = k := by omega
        simp only [h1, and_false, decide_false, Bool.false_and, Bool.xor_false] at hg
        exact .inr ⟨x', by omega, by omega, by rwa [h3], hg⟩
    · rintro (hd | ⟨x', h1, h2, h3, h4⟩)
      · exact .inl (.inl hd)
      · by_cases hk : x'.val = ox + k
        · refine .inr ⟨by rwa [show x'.val - ox = k by omega] at h3, x', hk, ?_⟩
          have h5 : ¬ (x'.val < ox + k) := by omega
          rw [drawBits_get]
          simpa only [h5, and_false, decide_false, Bool.false_and, Bool.xor_false] using h4
        · exact .inl (.inr ⟨x', h1, by omega, h3, h4⟩)

/-- One sprite row at row `py`: the pixels it inverts. -/
theorem drawRow_get (ox py : Nat) (byte : Byte) (d : Drawing) (x' : Fin 64) (y' : Fin 32) :
    (drawRow ox py byte d).1.get x' y' =
      (d.1.get x' y' ^^
        (decide (y'.val = py ∧ ox ≤ x'.val ∧ x'.val < ox + 8) && byte.getLsbD (7 - (x'.val - ox)))) := by
  unfold drawRow
  split
  · next h =>
    have := drawBits_get ⟨py, h⟩ ox byte 8 d x' y'
    simpa only [drawBits, Fin.ext_iff] using this
  · next h =>
    have : ¬ (y'.val = py) := by omega
    simp [this]

/-- One sprite row: when it collides. -/
theorem drawRow_hit (ox py : Nat) (byte : Byte) (d : Drawing) :
    (drawRow ox py byte d).2 = true ↔
      d.2 = true ∨ ∃ (x' : Fin 64) (y' : Fin 32), y'.val = py ∧ ox ≤ x'.val ∧ x'.val < ox + 8 ∧
        byte.getLsbD (7 - (x'.val - ox)) = true ∧ d.1.get x' y' = true := by
  unfold drawRow
  split
  · next h =>
    refine (drawBits_hit ⟨py, h⟩ ox byte 8 d).trans (or_congr_right ⟨?_, ?_⟩)
    · rintro ⟨x', h1⟩
      exact ⟨x', ⟨py, h⟩, rfl, h1⟩
    · rintro ⟨x', y', rfl, h1⟩
      exact ⟨x', h1⟩
  · next h =>
    refine ⟨Or.inl, fun hd => hd.resolve_right ?_⟩
    rintro ⟨x', y', rfl, -⟩
    exact h y'.isLt

/-- Does the sprite `bytes`, drawn from column `ox` and row `py`, have a 1 bit at the pixel? -/
def rowsBit (ox py : Nat) (bytes : List Byte) (x' : Fin 64) (y' : Fin 32) : Bool :=
  decide (ox ≤ x'.val ∧ x'.val < ox + 8 ∧ py ≤ y'.val ∧ y'.val < py + bytes.length) &&
    (bytes.getD (y'.val - py) 0).getLsbD (7 - (x'.val - ox))

theorem rowsBit_cons (ox py : Nat) (byte : Byte) (rest : List Byte) (x' : Fin 64) (y' : Fin 32) :
    rowsBit ox py (byte :: rest) x' y' =
      if y'.val = py then decide (ox ≤ x'.val ∧ x'.val < ox + 8) && byte.getLsbD (7 - (x'.val - ox))
      else rowsBit ox (py + 1) rest x' y' := by
  unfold rowsBit
  split
  · next h => simp [h]
  · next h =>
    by_cases hp : py < y'.val
    · have h1 : y'.val - py = (y'.val - (py + 1)) + 1 := by omega
      have h2 : (py ≤ y'.val ∧ y'.val < py + (rest.length + 1)) ↔
          (py + 1 ≤ y'.val ∧ y'.val < py + 1 + rest.length) := by omega
      simp only [List.length_cons, h2, h1, List.getD_cons_succ]
    · have h1 : ¬ (py ≤ y'.val) := by omega
      have h2 : ¬ (py + 1 ≤ y'.val) := by omega
      simp [h1, h2]

theorem rowsBit_next_row (ox py : Nat) (rest : List Byte) (x' : Fin 64) (y' : Fin 32) (h : y'.val = py) :
    rowsBit ox (py + 1) rest x' y' = false := by
  have : ¬ (py + 1 ≤ y'.val) := by omega
  simp [rowsBit, this]

/-- Everything a draw does to the frame buffer: each pixel is XORed with the sprite's bit there. -/
theorem drawRows_get (ox py : Nat) (bytes : List Byte) (d : Drawing) (x' : Fin 64) (y' : Fin 32) :
    (drawRows ox py bytes d).1.get x' y' = (d.1.get x' y' ^^ rowsBit ox py bytes x' y') := by
  induction bytes generalizing py d with
  | nil => simp [drawRows, rowsBit]
  | cons byte rest ih =>
    rw [drawRows, ih, drawRow_get, rowsBit_cons]
    by_cases h : y'.val = py
    · simp [rowsBit_next_row ox py rest x' y' h, h]
    · simp [h]

/-- When a draw collides: exactly if some pixel that was on lies under a 1 bit of the sprite. -/
theorem drawRows_hit (ox py : Nat) (bytes : List Byte) (d : Drawing) :
    (drawRows ox py bytes d).2 = true ↔
      d.2 = true ∨ ∃ x' y', d.1.get x' y' = true ∧ rowsBit ox py bytes x' y' = true := by
  induction bytes generalizing py d with
  | nil =>
    refine ⟨Or.inl, fun hd => hd.resolve_right ?_⟩
    rintro ⟨x', y', -, h⟩
    simp [rowsBit] at h
  | cons byte rest ih =>
    rw [drawRows, ih, drawRow_hit]
    constructor
    · rintro ((hd | ⟨x', y', hy, h1, h2, h3, h4⟩) | ⟨x', y', hg, hb⟩)
      · exact .inl hd
      · exact .inr ⟨x', y', h4, by rw [rowsBit_cons]; simp [hy, h1, h2, h3]⟩
      · have hy : y'.val ≠ py := fun h => by simp [rowsBit_next_row ox py rest x' y' h] at hb
        rw [drawRow_get] at hg
        refine .inr ⟨x', y', by simpa [hy] using hg, by rw [rowsBit_cons]; simpa [hy] using hb⟩
    · rintro (hd | ⟨x', y', hg, hb⟩)
      · exact .inl (.inl hd)
      · rw [rowsBit_cons] at hb
        by_cases hy : y'.val = py
        · simp only [hy, if_true, Bool.and_eq_true, decide_eq_true_eq] at hb
          exact .inl (.inr ⟨x', y', hy, hb.1.1, hb.1.2, hb.2, hg⟩)
        · rw [if_neg hy] at hb
          exact .inr ⟨x', y', by rw [drawRow_get]; simpa [hy] using hg, hb⟩

end Sys2Proof.Machine
end

