-- ==== Sys2Proof/Laws/Encoding.lean ====
section
/-! SUPPORT. Encoding: the value of each field of a word, the fields of each format, and a word read back from its bytes. -/

namespace Sys2Proof

/-- A word read back from the bytes it is stored as. -/
theorem wordOfBytes_bytes (w : Word) :
    wordOfBytes (BitVec.ofNat 8 (bits w 15 8)) (BitVec.ofNat 8 (bits w 7 0)) = w := by
  apply BitVec.eq_of_toNat_eq
  have := w.isLt
  simp [wordOfBytes, bits]
  omega

/-! ## Each field as a number -/

theorem fieldX_val (w : Word) : (fieldX w).val = w.toNat / 256 % 16 := by simp [fieldX, bits]
theorem fieldY_val (w : Word) : (fieldY w).val = w.toNat / 16 % 16 := by simp [fieldY, bits]
theorem fieldKK_toNat (w : Word) : (fieldKK w).toNat = w.toNat % 256 := by simp [fieldKK, bits]
theorem fieldNNN_toNat (w : Word) : (fieldNNN w).toNat = w.toNat % 4096 := by simp [fieldNNN, bits]
theorem fieldN_eq (w : Word) : fieldN w = w.toNat % 16 := by simp [fieldN, bits]
theorem fieldFamily_eq (w : Word) : fieldFamily w = w.toNat / 4096 := by
  have := w.isLt
  simp [fieldFamily, bits]
  omega

/-! ## The fields of each format -/

variable {f n sub : Nat} (x y : Reg) (kk : Byte) (nnn : Addr12)

theorem fieldFamily_formatA (hf : f < 16) : fieldFamily (formatA f nnn) = f := by
  simp [fieldFamily, bits, formatA]; omega

theorem fieldNNN_formatA : fieldNNN (formatA f nnn) = nnn := by
  apply BitVec.eq_of_toNat_eq; simp [fieldNNN, bits, formatA]; omega

theorem fieldFamily_formatK (hf : f < 16) : fieldFamily (formatK f x kk) = f := by
  simp [fieldFamily, bits, formatK]; omega

theorem fieldX_formatK : fieldX (formatK f x kk) = x := by
  apply Fin.ext; simp [fieldX, bits, formatK]; omega

theorem fieldKK_formatK : fieldKK (formatK f x kk) = kk := by
  apply BitVec.eq_of_toNat_eq; simp [fieldKK, bits, formatK]; omega

theorem fieldFamily_formatR (hf : f < 16) (hn : n < 16) : fieldFamily (formatR f x y n) = f := by
  simp [fieldFamily, bits, formatR]; omega

theorem fieldX_formatR (hn : n < 16) : fieldX (formatR f x y n) = x := by
  apply Fin.ext; simp [fieldX, bits, formatR]; omega

theorem fieldY_formatR (hn : n < 16) : fieldY (formatR f x y n) = y := by
  apply Fin.ext; simp [fieldY, bits, formatR]; omega

theorem fieldN_formatR (hn : n < 16) : fieldN (formatR f x y n) = n := by
  simp [fieldN, bits, formatR]; omega

theorem fieldFamily_formatX (hf : f < 16) (hs : sub < 256) : fieldFamily (formatX f x sub) = f := by
  simp [fieldFamily, bits, formatX]; omega

theorem fieldX_formatX (hs : sub < 256) : fieldX (formatX f x sub) = x := by
  apply Fin.ext; simp [fieldX, bits, formatX]; omega

theorem fieldKK_formatX : fieldKK (formatX f x sub) = BitVec.ofNat 8 sub := by
  apply BitVec.eq_of_toNat_eq; simp [fieldKK, bits, formatX]; omega

/-! ## The masks of the opcode map as numbers -/

theorem mask_family (w : Word) : (w &&& 0xF000).toNat = w.toNat / 4096 * 4096 := by
  have e : w &&& (0xF000 : Word) = (w >>> (12 : Nat)) <<< (12 : Nat) := by
    apply BitVec.eq_of_getLsbD_eq
    intro i hi
    have : i < 16 := hi
    interval_cases i <;> simp
  have := w.isLt
  rw [e]
  simp [Nat.shiftRight_eq_div_pow, Nat.shiftLeft_eq]
  omega

theorem mask_low (w m : Word) (k : Nat) (h : m.toNat = 2 ^ k - 1) : (w &&& m).toNat = w.toNat % 2 ^ k := by
  rw [BitVec.toNat_and, h, Nat.and_two_pow_sub_one_eq_mod]

/-- A mask of the high nibble and low bits is the two masks added. -/
theorem mask_split (w lo : Word) (h : 0xF000 &&& lo = 0) :
    (w &&& (0xF000 ||| lo)) = (w &&& 0xF000) + (w &&& lo) := by
  rw [BitVec.and_or_distrib_left]
  symm
  apply BitVec.add_eq_or_of_and_eq_zero
  apply BitVec.eq_of_getLsbD_eq
  intro i hi
  have := congrArg (fun v : Word => v.getLsbD i) h
  simp only [BitVec.getLsbD_and] at this ⊢
  cases hw : w.getLsbD i <;> simp_all

theorem mask_family_low (w : Word) : (w &&& 0xF00F).toNat = w.toNat / 4096 * 4096 + w.toNat % 16 := by
  have := w.isLt
  rw [show (0xF00F : Word) = 0xF000 ||| 0x000F from rfl, mask_split w 0x000F rfl, BitVec.toNat_add, mask_family,
    mask_low w 0x000F 4 rfl]
  omega

theorem mask_family_byte (w : Word) : (w &&& 0xF0FF).toNat = w.toNat / 4096 * 4096 + w.toNat % 256 := by
  have := w.isLt
  rw [show (0xF0FF : Word) = 0xF000 ||| 0x00FF from rfl, mask_split w 0x00FF rfl, BitVec.toNat_add, mask_family,
    mask_low w 0x00FF 8 rfl]
  omega

theorem mask_all (w : Word) : w &&& 0xFFFF = w := by
  apply BitVec.eq_of_toNat_eq
  have := w.isLt
  rw [mask_low w 0xFFFF 16 rfl]
  omega

end Sys2Proof
end

