-- ==== Sys2Proof/Laws/Memory.lean ====
section
/-! SUPPORT. Memory: a read after a write, and that every operation keeps the canonical form. -/

namespace Sys2Proof.Machine

variable {cfg : Config}

/-! ## Canonical form -/

@[simp] theorem Memory.wfFrom_nil (low : Nat) : Memory.wfFrom cfg low [] = true := rfl

theorem Memory.wfFrom_cons {low a : Nat} {v : Byte} {m : Memory} :
    Memory.wfFrom cfg low ((a, v) :: m) = true ↔
      low ≤ a ∧ a ≤ lastAddr ∧ v ≠ Memory.initial cfg a ∧ Memory.wfFrom cfg (a + 1) m = true := by
  simp [Memory.wfFrom, and_assoc]

theorem Memory.wfFrom_mono {low low' : Nat} {m : Memory} (h : low' ≤ low)
    (hm : Memory.wfFrom cfg low m = true) : Memory.wfFrom cfg low' m = true := by
  cases m with
  | nil => rfl
  | cons c m =>
    rw [Memory.wfFrom_cons] at hm ⊢
    exact ⟨by omega, hm.2⟩

theorem Memory.wf_nil : Memory.wf cfg [] = true := rfl

theorem Memory.drop_wfFrom {low a : Nat} {m : Memory} (hm : Memory.wfFrom cfg low m = true) :
    Memory.wfFrom cfg low (Memory.drop a m) = true := by
  induction m generalizing low with
  | nil => rfl
  | cons c m ih =>
    obtain ⟨b, w⟩ := c
    rw [Memory.wfFrom_cons] at hm
    unfold Memory.drop
    split
    · exact Memory.wfFrom_mono (by omega) hm.2.2.2
    · exact Memory.wfFrom_cons.2 ⟨hm.1, hm.2.1, hm.2.2.1, ih hm.2.2.2⟩

theorem Memory.put_wfFrom {low a : Nat} {v : Byte} {m : Memory} (hlow : low ≤ a) (ha : a ≤ lastAddr)
    (hv : v ≠ Memory.initial cfg a) (hm : Memory.wfFrom cfg low m = true) :
    Memory.wfFrom cfg low (Memory.put a v m) = true := by
  induction m generalizing low with
  | nil => exact Memory.wfFrom_cons.2 ⟨hlow, ha, hv, rfl⟩
  | cons c m ih =>
    obtain ⟨b, w⟩ := c
    rw [Memory.wfFrom_cons] at hm
    unfold Memory.put
    split
    · exact Memory.wfFrom_cons.2 ⟨hlow, ha, hv, Memory.wfFrom_cons.2 ⟨by omega, hm.2⟩⟩
    · split
      · next h => subst h; exact Memory.wfFrom_cons.2 ⟨hlow, ha, hv, hm.2.2.2⟩
      · exact Memory.wfFrom_cons.2 ⟨hm.1, hm.2.1, hm.2.2.1, ih (by omega) hm.2.2.2⟩

theorem Memory.write_wf {a : Nat} {v : Byte} {m : Memory} (ha : a ≤ lastAddr)
    (hm : Memory.wf cfg m = true) : Memory.wf cfg (Memory.write cfg m a v) = true := by
  unfold Memory.write
  split
  · exact Memory.drop_wfFrom hm
  · next hv => exact Memory.put_wfFrom (Nat.zero_le a) ha hv hm

theorem Memory.writeBytes_wf {a : Nat} {vs : List Byte} {m : Memory} (ha : a + vs.length ≤ lastAddr + 1)
    (hm : Memory.wf cfg m = true) : Memory.wf cfg (Memory.writeBytes cfg m a vs) = true := by
  induction vs generalizing m a with
  | nil => exact hm
  | cons v vs ih =>
    simp only [List.length_cons] at ha
    exact ih (by omega) (Memory.write_wf (by omega) hm)

/-! ## Reads -/

theorem Memory.read_of_lt {low a : Nat} {m : Memory} (h : a < low) (hm : Memory.wfFrom cfg low m = true) :
    Memory.read cfg m a = Memory.initial cfg a := by
  induction m generalizing low with
  | nil => rfl
  | cons c m ih =>
    obtain ⟨b, w⟩ := c
    rw [Memory.wfFrom_cons] at hm
    unfold Memory.read
    rw [if_neg (by omega)]
    exact ih (by omega) hm.2.2.2

theorem Memory.read_put (a b : Nat) (v : Byte) (m : Memory) :
    Memory.read cfg (Memory.put a v m) b = if b = a then v else Memory.read cfg m b := by
  induction m with
  | nil => simp [Memory.put, Memory.read, eq_comm]
  | cons c m ih =>
    obtain ⟨d, w⟩ := c
    unfold Memory.put
    split
    · simp [Memory.read, eq_comm]
    · split
      · next h => subst h; simp only [Memory.read, eq_comm (a := a)]; split <;> rfl
      · next h => simp only [Memory.read, ih]; split <;> [(split <;> [omega; rfl]); rfl]

theorem Memory.read_drop_ne {a b : Nat} (h : b ≠ a) (m : Memory) :
    Memory.read cfg (Memory.drop a m) b = Memory.read cfg m b := by
  induction m with
  | nil => rfl
  | cons c m ih =>
    obtain ⟨d, w⟩ := c
    unfold Memory.drop
    split
    · next h' => simp only [Memory.read]; rw [if_neg (by omega)]
    · simp only [Memory.read, ih]

theorem Memory.read_drop_same {low a : Nat} {m : Memory} (hm : Memory.wfFrom cfg low m = true) :
    Memory.read cfg (Memory.drop a m) a = Memory.initial cfg a := by
  induction m generalizing low with
  | nil => rfl
  | cons c m ih =>
    obtain ⟨d, w⟩ := c
    rw [Memory.wfFrom_cons] at hm
    unfold Memory.drop
    split
    · next h => exact Memory.read_of_lt (by omega) hm.2.2.2
    · next h => simp only [Memory.read]; rw [if_neg (by omega)]; exact ih hm.2.2.2

/-- A write changes no other byte. -/
theorem Memory.read_write_ne {a b : Nat} (h : b ≠ a) (v : Byte) (m : Memory) :
    Memory.read cfg (Memory.write cfg m a v) b = Memory.read cfg m b := by
  unfold Memory.write
  split
  · exact Memory.read_drop_ne h m
  · rw [Memory.read_put, if_neg h]

/-- A read after a write gives the value written. -/
theorem Memory.read_write_same (a : Nat) (v : Byte) {m : Memory} (hm : Memory.wf cfg m = true) :
    Memory.read cfg (Memory.write cfg m a v) a = v := by
  unfold Memory.write
  split
  · next h => rw [h]; exact Memory.read_drop_same hm
  · rw [Memory.read_put, if_pos rfl]

/-- Bytes outside the written range read as before. -/
theorem Memory.read_writeBytes_outside {a b : Nat} {vs : List Byte} (h : b < a ∨ a + vs.length ≤ b) (m : Memory) :
    Memory.read cfg (Memory.writeBytes cfg m a vs) b = Memory.read cfg m b := by
  induction vs generalizing m a with
  | nil => rfl
  | cons v vs ih =>
    simp only [List.length_cons] at h
    unfold Memory.writeBytes
    rw [ih (by omega), Memory.read_write_ne (by omega)]

/-- Bytes inside the written range read as written. -/
theorem Memory.read_writeBytes_inside {a : Nat} {vs : List Byte} {m : Memory} (ha : a + vs.length ≤ lastAddr + 1)
    (hm : Memory.wf cfg m = true) {k : Nat} (hk : k < vs.length) :
    Memory.read cfg (Memory.writeBytes cfg m a vs) (a + k) = vs[k] := by
  induction vs generalizing m a k with
  | nil => simp at hk
  | cons v vs ih =>
    simp only [List.length_cons] at ha hk
    unfold Memory.writeBytes
    cases k with
    | zero =>
      rw [Memory.read_writeBytes_outside (by omega)]
      exact Memory.read_write_same _ v hm
    | succ k =>
      have := ih (m := Memory.write cfg m a v) (a := a + 1) (k := k) (by omega) (Memory.write_wf (by omega) hm) (by omega)
      rw [show a + (k + 1) = a + 1 + k by omega, this]
      rfl

/-- Memories in canonical form that read alike are equal. -/
theorem Memory.ext_of_read {low : Nat} {m m' : Memory} (hm : Memory.wfFrom cfg low m = true)
    (hm' : Memory.wfFrom cfg low m' = true) (h : ∀ a, Memory.read cfg m a = Memory.read cfg m' a) : m = m' := by
  induction m generalizing low m' with
  | nil =>
    cases m' with
    | nil => rfl
    | cons c m' =>
      obtain ⟨b, w⟩ := c
      have := h b
      rw [Memory.wfFrom_cons] at hm'
      simp only [Memory.read, if_true] at this
      exact absurd this.symm hm'.2.2.1
  | cons c m ih =>
    obtain ⟨a, v⟩ := c
    have hmc := Memory.wfFrom_cons.1 hm
    have hread : Memory.read cfg ((a, v) :: m) a = v := by simp [Memory.read]
    cases m' with
    | nil =>
      have := h a
      rw [hread] at this
      exact absurd this hmc.2.2.1
    | cons c' m' =>
      obtain ⟨b, w⟩ := c'
      have hmc' := Memory.wfFrom_cons.1 hm'
      have hread' : Memory.read cfg ((b, w) :: m') b = w := by simp [Memory.read]
      have hab : a = b := by
        rcases Nat.lt_trichotomy a b with hlt | heq | hgt
        · have := h a
          rw [hread, Memory.read_of_lt (low := b) hlt (Memory.wfFrom_cons.2 ⟨le_refl b, hmc'.2⟩)] at this
          exact absurd this hmc.2.2.1
        · exact heq
        · have := h b
          rw [hread', Memory.read_of_lt (low := a) hgt (Memory.wfFrom_cons.2 ⟨le_refl a, hmc.2⟩)] at this
          exact absurd this.symm hmc'.2.2.1
      subst hab
      have hvw : v = w := by have := h a; rw [hread, hread'] at this; exact this
      subst hvw
      congr 1
      refine ih hmc.2.2.2 hmc'.2.2.2 fun d => ?_
      by_cases hd : a = d
      · subst hd
        rw [Memory.read_of_lt (Nat.lt_succ_self a) hmc.2.2.2, Memory.read_of_lt (Nat.lt_succ_self a) hmc'.2.2.2]
      · have := h d
        simpa [Memory.read, hd] using this

end Sys2Proof.Machine
end

