-- ==== Sys2Proof/Laws/State.lean ====
section
/-! SUPPORT. What each named update of State leaves in each field: one lemma per field per update. -/

namespace Sys2Proof.Machine

variable (s : State)

/-! setReg -/

@[simp] theorem State.setReg_v (x : Reg) (b : Byte) : (s.setReg x b).v = s.v.set x b := rfl
@[simp] theorem State.setReg_i (x : Reg) (b : Byte) : (s.setReg x b).i = s.i := rfl
@[simp] theorem State.setReg_pc (x : Reg) (b : Byte) : (s.setReg x b).pc = s.pc := rfl
@[simp] theorem State.setReg_stack (x : Reg) (b : Byte) : (s.setReg x b).stack = s.stack := rfl
@[simp] theorem State.setReg_dt (x : Reg) (b : Byte) : (s.setReg x b).dt = s.dt := rfl
@[simp] theorem State.setReg_st (x : Reg) (b : Byte) : (s.setReg x b).st = s.st := rfl
@[simp] theorem State.setReg_mem (x : Reg) (b : Byte) : (s.setReg x b).mem = s.mem := rfl
@[simp] theorem State.setReg_fb (x : Reg) (b : Byte) : (s.setReg x b).fb = s.fb := rfl
@[simp] theorem State.setReg_keys (x : Reg) (b : Byte) : (s.setReg x b).keys = s.keys := rfl
@[simp] theorem State.setReg_err (x : Reg) (b : Byte) : (s.setReg x b).err = s.err := rfl
@[simp] theorem State.setReg_cfg (x : Reg) (b : Byte) : (s.setReg x b).cfg = s.cfg := rfl
@[simp] theorem State.setReg_schedule (x : Reg) (b : Byte) : (s.setReg x b).schedule = s.schedule := rfl
@[simp] theorem State.setReg_rndSupply (x : Reg) (b : Byte) : (s.setReg x b).rndSupply = s.rndSupply := rfl
@[simp] theorem State.setReg_rndCount (x : Reg) (b : Byte) : (s.setReg x b).rndCount = s.rndCount := rfl
@[simp] theorem State.setReg_reports (x : Reg) (b : Byte) : (s.setReg x b).reports = s.reports := rfl

/-! setPc -/

@[simp] theorem State.setPc_v (w : Word) : (s.setPc w).v = s.v := rfl
@[simp] theorem State.setPc_i (w : Word) : (s.setPc w).i = s.i := rfl
@[simp] theorem State.setPc_pc (w : Word) : (s.setPc w).pc = w := rfl
@[simp] theorem State.setPc_stack (w : Word) : (s.setPc w).stack = s.stack := rfl
@[simp] theorem State.setPc_dt (w : Word) : (s.setPc w).dt = s.dt := rfl
@[simp] theorem State.setPc_st (w : Word) : (s.setPc w).st = s.st := rfl
@[simp] theorem State.setPc_mem (w : Word) : (s.setPc w).mem = s.mem := rfl
@[simp] theorem State.setPc_fb (w : Word) : (s.setPc w).fb = s.fb := rfl
@[simp] theorem State.setPc_keys (w : Word) : (s.setPc w).keys = s.keys := rfl
@[simp] theorem State.setPc_err (w : Word) : (s.setPc w).err = s.err := rfl
@[simp] theorem State.setPc_cfg (w : Word) : (s.setPc w).cfg = s.cfg := rfl
@[simp] theorem State.setPc_schedule (w : Word) : (s.setPc w).schedule = s.schedule := rfl
@[simp] theorem State.setPc_rndSupply (w : Word) : (s.setPc w).rndSupply = s.rndSupply := rfl
@[simp] theorem State.setPc_rndCount (w : Word) : (s.setPc w).rndCount = s.rndCount := rfl
@[simp] theorem State.setPc_reports (w : Word) : (s.setPc w).reports = s.reports := rfl

/-! setI -/

@[simp] theorem State.setI_v (w : Word) : (s.setI w).v = s.v := rfl
@[simp] theorem State.setI_i (w : Word) : (s.setI w).i = w := rfl
@[simp] theorem State.setI_pc (w : Word) : (s.setI w).pc = s.pc := rfl
@[simp] theorem State.setI_stack (w : Word) : (s.setI w).stack = s.stack := rfl
@[simp] theorem State.setI_dt (w : Word) : (s.setI w).dt = s.dt := rfl
@[simp] theorem State.setI_st (w : Word) : (s.setI w).st = s.st := rfl
@[simp] theorem State.setI_mem (w : Word) : (s.setI w).mem = s.mem := rfl
@[simp] theorem State.setI_fb (w : Word) : (s.setI w).fb = s.fb := rfl
@[simp] theorem State.setI_keys (w : Word) : (s.setI w).keys = s.keys := rfl
@[simp] theorem State.setI_err (w : Word) : (s.setI w).err = s.err := rfl
@[simp] theorem State.setI_cfg (w : Word) : (s.setI w).cfg = s.cfg := rfl
@[simp] theorem State.setI_schedule (w : Word) : (s.setI w).schedule = s.schedule := rfl
@[simp] theorem State.setI_rndSupply (w : Word) : (s.setI w).rndSupply = s.rndSupply := rfl
@[simp] theorem State.setI_rndCount (w : Word) : (s.setI w).rndCount = s.rndCount := rfl
@[simp] theorem State.setI_reports (w : Word) : (s.setI w).reports = s.reports := rfl

/-! push -/

@[simp] theorem State.push_v (w : Word) : (s.push w).v = s.v := rfl
@[simp] theorem State.push_i (w : Word) : (s.push w).i = s.i := rfl
@[simp] theorem State.push_pc (w : Word) : (s.push w).pc = s.pc := rfl
@[simp] theorem State.push_stack (w : Word) : (s.push w).stack = s.stack ++ [w] := rfl
@[simp] theorem State.push_dt (w : Word) : (s.push w).dt = s.dt := rfl
@[simp] theorem State.push_st (w : Word) : (s.push w).st = s.st := rfl
@[simp] theorem State.push_mem (w : Word) : (s.push w).mem = s.mem := rfl
@[simp] theorem State.push_fb (w : Word) : (s.push w).fb = s.fb := rfl
@[simp] theorem State.push_keys (w : Word) : (s.push w).keys = s.keys := rfl
@[simp] theorem State.push_err (w : Word) : (s.push w).err = s.err := rfl
@[simp] theorem State.push_cfg (w : Word) : (s.push w).cfg = s.cfg := rfl
@[simp] theorem State.push_schedule (w : Word) : (s.push w).schedule = s.schedule := rfl
@[simp] theorem State.push_rndSupply (w : Word) : (s.push w).rndSupply = s.rndSupply := rfl
@[simp] theorem State.push_rndCount (w : Word) : (s.push w).rndCount = s.rndCount := rfl
@[simp] theorem State.push_reports (w : Word) : (s.push w).reports = s.reports := rfl

/-! storeBytes -/

@[simp] theorem State.storeBytes_v (a : Nat) (vs : List Byte) : (s.storeBytes a vs).v = s.v := rfl
@[simp] theorem State.storeBytes_i (a : Nat) (vs : List Byte) : (s.storeBytes a vs).i = s.i := rfl
@[simp] theorem State.storeBytes_pc (a : Nat) (vs : List Byte) : (s.storeBytes a vs).pc = s.pc := rfl
@[simp] theorem State.storeBytes_stack (a : Nat) (vs : List Byte) : (s.storeBytes a vs).stack = s.stack := rfl
@[simp] theorem State.storeBytes_dt (a : Nat) (vs : List Byte) : (s.storeBytes a vs).dt = s.dt := rfl
@[simp] theorem State.storeBytes_st (a : Nat) (vs : List Byte) : (s.storeBytes a vs).st = s.st := rfl
@[simp] theorem State.storeBytes_mem (a : Nat) (vs : List Byte) : (s.storeBytes a vs).mem = Memory.writeBytes s.cfg s.mem a vs := rfl
@[simp] theorem State.storeBytes_fb (a : Nat) (vs : List Byte) : (s.storeBytes a vs).fb = s.fb := rfl
@[simp] theorem State.storeBytes_keys (a : Nat) (vs : List Byte) : (s.storeBytes a vs).keys = s.keys := rfl
@[simp] theorem State.storeBytes_err (a : Nat) (vs : List Byte) : (s.storeBytes a vs).err = s.err := rfl
@[simp] theorem State.storeBytes_cfg (a : Nat) (vs : List Byte) : (s.storeBytes a vs).cfg = s.cfg := rfl
@[simp] theorem State.storeBytes_schedule (a : Nat) (vs : List Byte) : (s.storeBytes a vs).schedule = s.schedule := rfl
@[simp] theorem State.storeBytes_rndSupply (a : Nat) (vs : List Byte) : (s.storeBytes a vs).rndSupply = s.rndSupply := rfl
@[simp] theorem State.storeBytes_rndCount (a : Nat) (vs : List Byte) : (s.storeBytes a vs).rndCount = s.rndCount := rfl
@[simp] theorem State.storeBytes_reports (a : Nat) (vs : List Byte) : (s.storeBytes a vs).reports = s.reports := rfl

/-! report -/

@[simp] theorem State.report_v (w : Word) : (s.report w).v = s.v := rfl
@[simp] theorem State.report_i (w : Word) : (s.report w).i = s.i := rfl
@[simp] theorem State.report_pc (w : Word) : (s.report w).pc = s.pc := rfl
@[simp] theorem State.report_stack (w : Word) : (s.report w).stack = s.stack := rfl
@[simp] theorem State.report_dt (w : Word) : (s.report w).dt = s.dt := rfl
@[simp] theorem State.report_st (w : Word) : (s.report w).st = s.st := rfl
@[simp] theorem State.report_mem (w : Word) : (s.report w).mem = s.mem := rfl
@[simp] theorem State.report_fb (w : Word) : (s.report w).fb = s.fb := rfl
@[simp] theorem State.report_keys (w : Word) : (s.report w).keys = s.keys := rfl
@[simp] theorem State.report_err (w : Word) : (s.report w).err = s.err := rfl
@[simp] theorem State.report_cfg (w : Word) : (s.report w).cfg = s.cfg := rfl
@[simp] theorem State.report_schedule (w : Word) : (s.report w).schedule = s.schedule := rfl
@[simp] theorem State.report_rndSupply (w : Word) : (s.report w).rndSupply = s.rndSupply := rfl
@[simp] theorem State.report_rndCount (w : Word) : (s.report w).rndCount = s.rndCount := rfl
@[simp] theorem State.report_reports (w : Word) : (s.report w).reports = s.reports ++ [w] := rfl

/-! setKey -/

@[simp] theorem State.setKey_v (k : Key) (down : Bool) : (s.setKey k down).v = s.v := rfl
@[simp] theorem State.setKey_i (k : Key) (down : Bool) : (s.setKey k down).i = s.i := rfl
@[simp] theorem State.setKey_pc (k : Key) (down : Bool) : (s.setKey k down).pc = s.pc := rfl
@[simp] theorem State.setKey_stack (k : Key) (down : Bool) : (s.setKey k down).stack = s.stack := rfl
@[simp] theorem State.setKey_dt (k : Key) (down : Bool) : (s.setKey k down).dt = s.dt := rfl
@[simp] theorem State.setKey_st (k : Key) (down : Bool) : (s.setKey k down).st = s.st := rfl
@[simp] theorem State.setKey_mem (k : Key) (down : Bool) : (s.setKey k down).mem = s.mem := rfl
@[simp] theorem State.setKey_fb (k : Key) (down : Bool) : (s.setKey k down).fb = s.fb := rfl
@[simp] theorem State.setKey_keys (k : Key) (down : Bool) : (s.setKey k down).keys = s.keys.set k down := rfl
@[simp] theorem State.setKey_err (k : Key) (down : Bool) : (s.setKey k down).err = s.err := rfl
@[simp] theorem State.setKey_cfg (k : Key) (down : Bool) : (s.setKey k down).cfg = s.cfg := rfl
@[simp] theorem State.setKey_schedule (k : Key) (down : Bool) : (s.setKey k down).schedule = s.schedule := rfl
@[simp] theorem State.setKey_rndSupply (k : Key) (down : Bool) : (s.setKey k down).rndSupply = s.rndSupply := rfl
@[simp] theorem State.setKey_rndCount (k : Key) (down : Bool) : (s.setKey k down).rndCount = s.rndCount := rfl
@[simp] theorem State.setKey_reports (k : Key) (down : Bool) : (s.setKey k down).reports = s.reports := rfl

/-! consumeRandom -/

@[simp] theorem State.consumeRandom_v : s.consumeRandom.v = s.v := rfl
@[simp] theorem State.consumeRandom_i : s.consumeRandom.i = s.i := rfl
@[simp] theorem State.consumeRandom_pc : s.consumeRandom.pc = s.pc := rfl
@[simp] theorem State.consumeRandom_stack : s.consumeRandom.stack = s.stack := rfl
@[simp] theorem State.consumeRandom_dt : s.consumeRandom.dt = s.dt := rfl
@[simp] theorem State.consumeRandom_st : s.consumeRandom.st = s.st := rfl
@[simp] theorem State.consumeRandom_mem : s.consumeRandom.mem = s.mem := rfl
@[simp] theorem State.consumeRandom_fb : s.consumeRandom.fb = s.fb := rfl
@[simp] theorem State.consumeRandom_keys : s.consumeRandom.keys = s.keys := rfl
@[simp] theorem State.consumeRandom_err : s.consumeRandom.err = s.err := rfl
@[simp] theorem State.consumeRandom_cfg : s.consumeRandom.cfg = s.cfg := rfl
@[simp] theorem State.consumeRandom_schedule : s.consumeRandom.schedule = s.schedule := rfl
@[simp] theorem State.consumeRandom_rndSupply : s.consumeRandom.rndSupply = s.rndSupply.tail := rfl
@[simp] theorem State.consumeRandom_rndCount : s.consumeRandom.rndCount = s.rndCount + 1 := rfl
@[simp] theorem State.consumeRandom_reports : s.consumeRandom.reports = s.reports := rfl

/-! setRegFlag -/

@[simp] theorem State.setRegFlag_v (x : Reg) (r f : Byte) : (s.setRegFlag x r f).v = (s.v.set x r).set vf f := rfl
@[simp] theorem State.setRegFlag_i (x : Reg) (r f : Byte) : (s.setRegFlag x r f).i = s.i := rfl
@[simp] theorem State.setRegFlag_pc (x : Reg) (r f : Byte) : (s.setRegFlag x r f).pc = s.pc := rfl
@[simp] theorem State.setRegFlag_stack (x : Reg) (r f : Byte) : (s.setRegFlag x r f).stack = s.stack := rfl
@[simp] theorem State.setRegFlag_dt (x : Reg) (r f : Byte) : (s.setRegFlag x r f).dt = s.dt := rfl
@[simp] theorem State.setRegFlag_st (x : Reg) (r f : Byte) : (s.setRegFlag x r f).st = s.st := rfl
@[simp] theorem State.setRegFlag_mem (x : Reg) (r f : Byte) : (s.setRegFlag x r f).mem = s.mem := rfl
@[simp] theorem State.setRegFlag_fb (x : Reg) (r f : Byte) : (s.setRegFlag x r f).fb = s.fb := rfl
@[simp] theorem State.setRegFlag_keys (x : Reg) (r f : Byte) : (s.setRegFlag x r f).keys = s.keys := rfl
@[simp] theorem State.setRegFlag_err (x : Reg) (r f : Byte) : (s.setRegFlag x r f).err = s.err := rfl
@[simp] theorem State.setRegFlag_cfg (x : Reg) (r f : Byte) : (s.setRegFlag x r f).cfg = s.cfg := rfl
@[simp] theorem State.setRegFlag_schedule (x : Reg) (r f : Byte) : (s.setRegFlag x r f).schedule = s.schedule := rfl
@[simp] theorem State.setRegFlag_rndSupply (x : Reg) (r f : Byte) : (s.setRegFlag x r f).rndSupply = s.rndSupply := rfl
@[simp] theorem State.setRegFlag_rndCount (x : Reg) (r f : Byte) : (s.setRegFlag x r f).rndCount = s.rndCount := rfl
@[simp] theorem State.setRegFlag_reports (x : Reg) (r f : Byte) : (s.setRegFlag x r f).reports = s.reports := rfl

/-! skipIf -/

@[simp] theorem State.skipIf_v (c : Bool) : (s.skipIf c).v = s.v := by cases c <;> rfl
@[simp] theorem State.skipIf_i (c : Bool) : (s.skipIf c).i = s.i := by cases c <;> rfl
@[simp] theorem State.skipIf_pc (c : Bool) : (s.skipIf c).pc = if c then s.pc + 2 else s.pc := by
  cases c <;> rfl
@[simp] theorem State.skipIf_stack (c : Bool) : (s.skipIf c).stack = s.stack := by cases c <;> rfl
@[simp] theorem State.skipIf_dt (c : Bool) : (s.skipIf c).dt = s.dt := by cases c <;> rfl
@[simp] theorem State.skipIf_st (c : Bool) : (s.skipIf c).st = s.st := by cases c <;> rfl
@[simp] theorem State.skipIf_mem (c : Bool) : (s.skipIf c).mem = s.mem := by cases c <;> rfl
@[simp] theorem State.skipIf_fb (c : Bool) : (s.skipIf c).fb = s.fb := by cases c <;> rfl
@[simp] theorem State.skipIf_keys (c : Bool) : (s.skipIf c).keys = s.keys := by cases c <;> rfl
@[simp] theorem State.skipIf_err (c : Bool) : (s.skipIf c).err = s.err := by cases c <;> rfl
@[simp] theorem State.skipIf_cfg (c : Bool) : (s.skipIf c).cfg = s.cfg := by cases c <;> rfl
@[simp] theorem State.skipIf_schedule (c : Bool) : (s.skipIf c).schedule = s.schedule := by cases c <;> rfl
@[simp] theorem State.skipIf_rndSupply (c : Bool) : (s.skipIf c).rndSupply = s.rndSupply := by cases c <;> rfl
@[simp] theorem State.skipIf_rndCount (c : Bool) : (s.skipIf c).rndCount = s.rndCount := by cases c <;> rfl
@[simp] theorem State.skipIf_reports (c : Bool) : (s.skipIf c).reports = s.reports := by cases c <;> rfl

/-! tick -/

@[simp] theorem State.tick_v : s.tick.v = s.v := rfl
@[simp] theorem State.tick_i : s.tick.i = s.i := rfl
@[simp] theorem State.tick_pc : s.tick.pc = s.pc := rfl
@[simp] theorem State.tick_stack : s.tick.stack = s.stack := rfl
@[simp] theorem State.tick_dt : s.tick.dt = decrement s.dt := rfl
@[simp] theorem State.tick_st :
    s.tick.st = if s.cfg.soundGated && decide (s.dt = 0) then s.st else decrement s.st := rfl
@[simp] theorem State.tick_mem : s.tick.mem = s.mem := rfl
@[simp] theorem State.tick_fb : s.tick.fb = s.fb := rfl
@[simp] theorem State.tick_keys : s.tick.keys = s.keys := rfl
@[simp] theorem State.tick_err : s.tick.err = s.err := rfl
@[simp] theorem State.tick_cfg : s.tick.cfg = s.cfg := rfl
@[simp] theorem State.tick_schedule : s.tick.schedule = s.schedule := rfl
@[simp] theorem State.tick_rndSupply : s.tick.rndSupply = s.rndSupply := rfl
@[simp] theorem State.tick_rndCount : s.tick.rndCount = s.rndCount := rfl
@[simp] theorem State.tick_reports : s.tick.reports = s.reports := rfl

end Sys2Proof.Machine
end

