-- ==== Sys2Proof/Laws/Registers.lean ====
section
/-! SUPPORT. Registers: a read after a write, and what register-dump and register-load read and write. -/

namespace Sys2Proof.Machine

variable (s : State)

/-- A register read after a register write. -/
@[simp] theorem State.reg_setReg (x y : Reg) (b : Byte) :
    (s.setReg x b).reg y = if y = x then b else s.reg y := by
  simp [State.reg, State.setReg, Vector.getElem_set, Fin.ext_iff, eq_comm]

/-- The flag is written last: with x = 15 it is what the register holds (R141). -/
@[simp] theorem State.reg_setRegFlag (x y : Reg) (r f : Byte) :
    (s.setRegFlag x r f).reg y = if y = vf then f else if y = x then r else s.reg y := by
  simp [State.setRegFlag]

@[simp] theorem State.reg_setPc (w : Word) (y : Reg) : (s.setPc w).reg y = s.reg y := rfl
@[simp] theorem State.reg_setI (w : Word) (y : Reg) : (s.setI w).reg y = s.reg y := rfl
@[simp] theorem State.reg_storeBytes (a : Nat) (vs : List Byte) (y : Reg) : (s.storeBytes a vs).reg y = s.reg y := rfl
@[simp] theorem State.reg_consumeRandom (y : Reg) : s.consumeRandom.reg y = s.reg y := rfl

@[simp] theorem State.byteAt_setReg (x : Reg) (b : Byte) (a : Nat) : (s.setReg x b).byteAt a = s.byteAt a := rfl
@[simp] theorem State.byteAt_setRegFlag (x : Reg) (r f : Byte) (a : Nat) :
    (s.setRegFlag x r f).byteAt a = s.byteAt a := rfl
@[simp] theorem State.byteAt_setPc (w : Word) (a : Nat) : (s.setPc w).byteAt a = s.byteAt a := rfl
@[simp] theorem State.byteAt_setI (w : Word) (a : Nat) : (s.setI w).byteAt a = s.byteAt a := rfl
@[simp] theorem State.byteAt_skipIf (c : Bool) (a : Nat) : (s.skipIf c).byteAt a = s.byteAt a := by cases c <;> rfl

/-- Writing a register changes the register file only. -/
theorem State.setReg_eq (x : Reg) (b : Byte) : s.setReg x b = { s with v := (s.setReg x b).v } := rfl

theorem State.setRegFlag_eq (x : Reg) (r f : Byte) : s.setRegFlag x r f = { s with v := (s.setRegFlag x r f).v } := rfl

/-- A skip changes PC only. -/
theorem State.skipIf_eq (c : Bool) : s.skipIf c = { s with pc := (s.skipIf c).pc } := by cases c <;> rfl

/-- Register files that read alike are equal. -/
theorem State.v_ext {s t : State} (h : ∀ k, s.reg k = t.reg k) : s.v = t.v := by
  apply Vector.ext
  intro i hi
  exact h ⟨i, hi⟩

/-! ## The registers 0..=x -/

theorem mem_allRegs (k : Reg) : k ∈ allRegs := by revert k; decide

theorem mem_regsUpTo {x k : Reg} : k ∈ regsUpTo x ↔ k.val ≤ x.val := by
  simp [regsUpTo, mem_allRegs]

theorem regsUpTo_length (x : Reg) : (regsUpTo x).length = x.val + 1 := by revert x; decide

theorem regsUpTo_get (x k : Reg) (h : k.val ≤ x.val) : (regsUpTo x)[k.val]? = some k := by
  revert x k; decide

@[simp] theorem dumpBytes_length (x : Reg) : (dumpBytes s x).length = x.val + 1 := by
  simp [dumpBytes, regsUpTo_length]

/-- The k-th byte register-dump stores is V[k]. -/
theorem dumpBytes_get (x k : Reg) (h : k.val ≤ x.val) : (dumpBytes s x)[k.val]? = some (s.reg k) := by
  simp [dumpBytes, regsUpTo_get x k h]

/-- What a fold of register writes leaves in a register. -/
theorem foldl_setReg_reg (f : Reg → Byte) (ks : List Reg) (t : State) (k : Reg) :
    (ks.foldl (fun t k => t.setReg k (f k)) t).reg k = if k ∈ ks then f k else t.reg k := by
  induction ks generalizing t with
  | nil => simp
  | cons j ks ih =>
    rw [List.foldl_cons, ih, State.reg_setReg]
    by_cases hk : k ∈ ks
    · simp [hk]
    · by_cases hj : k = j
      · subst hj; simp [hk]
      · simp [hk, hj]

/-- A fold of register writes changes the register file only. -/
theorem foldl_setReg_eq (f : Reg → Byte) (ks : List Reg) (t : State) :
    ks.foldl (fun t k => t.setReg k (f k)) t = { t with v := (ks.foldl (fun t k => t.setReg k (f k)) t).v } := by
  induction ks generalizing t with
  | nil => rfl
  | cons j ks ih =>
    rw [List.foldl_cons, ih]
    rfl

/-- Register-load: V0 through Vx hold the bytes from `base`, the others are unchanged. -/
theorem loadRegs_reg (base : Nat) (x k : Reg) :
    (loadRegs s base x).reg k = if k.val ≤ x.val then s.byteAt (base + k.val) else s.reg k := by
  simp [loadRegs, foldl_setReg_reg (fun k => s.byteAt (base + k.val)), mem_regsUpTo]

theorem loadRegs_eq (base : Nat) (x : Reg) : loadRegs s base x = { s with v := (loadRegs s base x).v } :=
  foldl_setReg_eq (fun k => s.byteAt (base + k.val)) (regsUpTo x) s

@[simp] theorem bcdDigits_length (b : Byte) : (bcdDigits b).length = 3 := rfl

/-- V[x] & 0x0F is the value of the low 4 bits. -/
theorem lowNibble_val (b : Byte) : (lowNibble b).val = b.toNat % 16 := by
  have h : b.toNat &&& 15 = b.toNat % 16 := Nat.and_two_pow_sub_one_eq_mod b.toNat 4
  simp [lowNibble, BitVec.toNat_and, h]

end Sys2Proof.Machine
end

