-- ==== Sys2Proof/Laws/Ops.lean ====
section
/-! SUPPORT. One lemma per shared operation: everything it can do, said once. -/

namespace Sys2Proof.Machine

/-- Raising a fault answers the state with the code latched. -/
@[simp] theorem raise_eq (f : Fault) (s : State) : raise f s = .next (latched s f) := rfl

@[simp] theorem inBounds_iff (a : Nat) : inBounds a = true ↔ a ≤ 4095 :=
  decide_eq_true_iff

/-- `pop` of a stack whose newest entry is `w`. -/
theorem State.pop_of_append {s : State} {rest : List Word} {w : Word} (h : s.stack = rest ++ [w]) :
    s.pop = some (w, { s with stack := rest }) := by
  simp [State.pop, h]

/-- Everything `pop` can do. -/
theorem State.pop_cases (s : State) :
    (s.stack = [] ∧ s.pop = none) ∨
      ∃ rest w, s.stack = rest ++ [w] ∧ s.pop = some (w, { s with stack := rest }) := by
  rcases List.eq_nil_or_concat s.stack with h | ⟨rest, w, h⟩
  · exact .inl ⟨h, by simp [State.pop, h]⟩
  · rw [List.concat_eq_append] at h
    exact .inr ⟨rest, w, h, State.pop_of_append h⟩

/-- Everything `fetch` can do: the two bytes at PC, high byte first, and PC advanced by 2; or nothing above address 4094. -/
theorem State.fetch_cases (s : State) :
    (4095 ≤ s.pc.toNat ∧ s.fetch = none) ∨
      (s.pc.toNat ≤ 4094 ∧
        s.fetch = some (wordOfBytes (s.byteAt s.pc.toNat) (s.byteAt (s.pc.toNat + 1)), s.setPc (s.pc + 2))) := by
  unfold State.fetch
  by_cases h : s.pc.toNat ≤ 4094
  · exact .inr ⟨h, by rw [if_pos]; simp [inBounds_iff]; omega⟩
  · exact .inl ⟨by omega, by rw [if_neg]; simp [inBounds_iff]; omega⟩

/-- Everything `keyLowest` can answer (R213): the least key that is down, or none when all are up. -/
theorem State.keyLowest_cases (s : State) :
    (s.keyLowest = none ∧ ∀ k, s.keyPressed k = false) ∨
      ∃ k, s.keyLowest = some k ∧ s.keyPressed k = true ∧ ∀ j < k, s.keyPressed j = false := by
  have hall : ∀ k : Key, k ∈ allKeys := by decide
  cases h : s.keyLowest with
  | none =>
    refine .inl ⟨rfl, fun k => ?_⟩
    have := List.find?_eq_none.1 h k (hall k)
    simpa using this
  | some k =>
    refine .inr ⟨k, rfl, List.find?_some h, fun j hj => ?_⟩
    obtain ⟨hk, as, bs, heq, hbefore⟩ := List.find?_eq_some_iff_append.1 h
    have hsorted : List.Pairwise (· < ·) allKeys := by decide
    have hmem : j ∈ as ++ k :: bs := heq ▸ hall j
    rw [heq] at hsorted
    have hp := List.pairwise_append.1 hsorted
    rcases List.mem_append.1 hmem with ha | hb
    · simpa using hbefore j ha
    · rcases List.mem_cons.1 hb with hjk | hjb
      · exact absurd hj (hjk ▸ lt_irrefl k)
      · exact absurd hj (lt_asymm ((List.pairwise_cons.1 hp.2.1).1 j hjb))

/-- Stored bytes: the k-th byte of the range reads as stored. -/
theorem State.byteAt_storeBytes_inside {s : State} {a : Nat} {vs : List Byte} (ha : a + vs.length ≤ 4096)
    (hm : Memory.wf s.cfg s.mem = true) {k : Nat} (hk : k < vs.length) :
    (s.storeBytes a vs).byteAt (a + k) = vs[k] :=
  Memory.read_writeBytes_inside (by simpa [lastAddr] using ha) hm hk

/-- Stored bytes: every byte outside the range reads as before. -/
theorem State.byteAt_storeBytes_outside {s : State} {a b : Nat} {vs : List Byte} (h : b < a ∨ a + vs.length ≤ b) :
    (s.storeBytes a vs).byteAt b = s.byteAt b :=
  Memory.read_writeBytes_outside h s.mem

/-- Everything the instruction cycle can do (R121): nothing when halted, a fetch fault, a report, or an execute phase. -/
theorem instructionCycle_cases (s : State) :
    (s.err.isSome ∧ instructionCycle s = .next s) ∨
      (s.err = none ∧ 4095 ≤ s.pc.toNat ∧ instructionCycle s = .next (latched s .addressOutOfBounds)) ∨
      (s.err = none ∧ s.pc.toNat ≤ 4094 ∧
        instructionCycle s =
          execWord (wordOfBytes (s.byteAt s.pc.toNat) (s.byteAt (s.pc.toNat + 1))) (s.setPc (s.pc + 2))) := by
  unfold instructionCycle
  cases he : s.err with
  | some f => exact .inl ⟨by simp, by simp⟩
  | none =>
    rcases s.fetch_cases with ⟨hp, hf⟩ | ⟨hp, hf⟩
    · exact .inr (.inl ⟨rfl, hp, by simp [hf]⟩)
    · exact .inr (.inr ⟨rfl, hp, by simp [hf]⟩)

/-- Everything the execute phase of a fetched word can do. -/
theorem execWord_cases (w : Word) (s : State) :
    (∃ i, decodeWord w = .ok i ∧ execWord w s = exec i s) ∨
      (∃ e, decodeWord w = .error e ∧ execWord w s = .next (s.report w)) := by
  unfold execWord
  cases h : decodeWord w with
  | ok i => exact .inl ⟨i, rfl, rfl⟩
  | error e => exact .inr ⟨e, rfl, rfl⟩

/-- Every step is one event: the first scheduled one, or a Step when nothing is scheduled. -/
theorem step_cases (s : State) :
    (s.schedule = [] ∧ step s = instructionCycle s) ∨
      ∃ e rest, s.schedule = e :: rest ∧ step s = applyEvent e { s with schedule := rest } := by
  unfold step nextEvent
  cases h : s.schedule with
  | nil => exact .inl ⟨rfl, rfl⟩
  | cons e rest => exact .inr ⟨e, rest, rfl, rfl⟩

end Sys2Proof.Machine
end

