-- ==== Sys2Proof/Laws/Exec.lean ====
section
/-! SUPPORT. One lemma per meaning that branches: everything it can answer, guards included. -/

namespace Sys2Proof.Machine

variable (s : State)

/-- The step that follows when the next event is a Step. -/
theorem step_of_stepNext {s s' : State} (h : s.stepNext s') : step s = instructionCycle s' := by
  rcases h with ⟨h, rfl⟩ | ⟨rest, h, rfl⟩ <;> simp [step, nextEvent, h, applyEvent]

/-- The state a Step acts on is the state itself but for the schedule. -/
theorem stepNext_eq {s s' : State} (h : s.stepNext s') : s' = { s with schedule := s'.schedule } := by
  rcases h with ⟨-, rfl⟩ | ⟨rest, -, rfl⟩ <;> rfl

/-- The word the fetch forms is the word at PC. -/
theorem wordOfBytes_at_pc {s : State} {w : Word} (h : s.wordAtPc w) :
    wordOfBytes (s.byteAt s.pc.toNat) (s.byteAt (s.pc.toNat + 1)) = w := by
  apply BitVec.eq_of_toNat_eq
  unfold State.wordAtPc at h
  simp [wordOfBytes, ← h]

/-- Everything return can do. -/
theorem execRet_cases :
    (s.stack = [] ∧ execRet s = .next (latched s .stackUnderflow)) ∨
      ∃ rest target, s.stack = rest ++ [target] ∧ execRet s = .next { s with pc := target, stack := rest } := by
  unfold execRet
  rcases s.pop_cases with ⟨h, hp⟩ | ⟨rest, target, h, hp⟩
  · exact .inl ⟨h, by simp [hp]⟩
  · exact .inr ⟨rest, target, h, by simp [hp, State.setPc]⟩

/-- Everything call can do. -/
theorem execCall_cases (nnn : Addr12) :
    (s.cfg.stackLimit = some s.stack.length ∧ execCall nnn s = .next (latched s .stackOverflow)) ∨
      (s.cfg.stackLimit ≠ some s.stack.length ∧
        execCall nnn s = .next { s with stack := s.stack ++ [s.pc], pc := zext16 nnn }) := by
  by_cases h : s.cfg.stackLimit = some s.stack.length
  · exact .inl ⟨h, by simp [execCall, State.stackFull, h]⟩
  · exact .inr ⟨h, by simp [execCall, State.stackFull, h, State.push, State.setPc]⟩

/-- Everything wait-for-key can do. -/
theorem execLdVxK_cases (x : Reg) :
    ((∀ k, s.keyPressed k = false) ∧ execLdVxK x s = .next (s.setPc (s.pc - 2))) ∨
      ∃ k, s.keyPressed k = true ∧ (∀ j < k, s.keyPressed j = false) ∧
        execLdVxK x s = .next (s.setReg x (BitVec.ofNat 8 k.val)) := by
  unfold execLdVxK
  rcases s.keyLowest_cases with ⟨h, hup⟩ | ⟨k, h, hk, hlow⟩
  · exact .inl ⟨hup, by simp [h]⟩
  · exact .inr ⟨k, hk, hlow, by simp [h]⟩

/-- Everything index += Vx can do. -/
theorem execAddI_cases (x : Reg) :
    (s.i.toNat + (s.reg x).toNat > 0x0FFF ∧
        execAddI x s = .next ((s.setI (s.i + (s.reg x).setWidth 16)).setReg vf 1)) ∨
      (s.i.toNat + (s.reg x).toNat ≤ 0x0FFF ∧ execAddI x s = .next (s.setI (s.i + (s.reg x).setWidth 16))) := by
  by_cases h : s.i.toNat + (s.reg x).toNat > 0x0FFF
  · exact .inl ⟨h, by simp [execAddI, indexOverflow, h]⟩
  · exact .inr ⟨not_lt.1 h, by simp only [execAddI, indexOverflow, h, decide_false]; rfl⟩

/-- Everything store-BCD can do. -/
theorem execLdB_cases (x : Reg) :
    (s.i.toNat + 2 ≤ 4095 ∧ execLdB x s = .next (s.storeBytes (s.indexAddr 0) (bcdDigits (s.reg x)))) ∨
      (4095 < s.i.toNat + 2 ∧ execLdB x s = .next (latched s .addressOutOfBounds)) := by
  by_cases h : s.i.toNat + 2 ≤ 4095
  · exact .inl ⟨h, by simp [execLdB, State.indexAddr, h]⟩
  · exact .inr ⟨not_le.1 h, by simp [execLdB, State.indexAddr, h]⟩

/-- Everything register-dump can do. -/
theorem execDump_cases (x : Reg) :
    (s.i.toNat + x.val ≤ 4095 ∧ execDump x s = .next (s.storeBytes (s.indexAddr 0) (dumpBytes s x))) ∨
      (4095 < s.i.toNat + x.val ∧ execDump x s = .next (latched s .addressOutOfBounds)) := by
  by_cases h : s.i.toNat + x.val ≤ 4095
  · exact .inl ⟨h, by simp [execDump, State.indexAddr, h]⟩
  · exact .inr ⟨not_le.1 h, by simp [execDump, State.indexAddr, h]⟩

/-- Everything register-load can do. -/
theorem execLoad_cases (x : Reg) :
    (s.i.toNat + x.val ≤ 4095 ∧ execLoad x s = .next (loadRegs s (s.indexAddr 0) x)) ∨
      (4095 < s.i.toNat + x.val ∧ execLoad x s = .next (latched s .addressOutOfBounds)) := by
  by_cases h : s.i.toNat + x.val ≤ 4095
  · exact .inl ⟨h, by simp [execLoad, State.indexAddr, h]⟩
  · exact .inr ⟨not_le.1 h, by simp [execLoad, State.indexAddr, h]⟩

/-- What draw puts in the frame buffer and whether it collides. -/
def drawing (x y : Reg) (n : Nat) : Drawing :=
  drawRows (originColumn (s.reg x)) (originRow (s.reg y)) (s.bytesAt (s.indexAddr 0) n) (s.fb, false)

/-- Everything draw can do. -/
theorem execDrw_cases (x y : Reg) (n : Nat) :
    ((n = 0 ∨ s.i.toNat + n - 1 ≤ 4095) ∧
        execDrw x y n s =
          .next (({ s with fb := (drawing s x y n).1 } : State).setReg vf (flagByte (drawing s x y n).2))) ∨
      (1 ≤ n ∧ 4095 < s.i.toNat + n - 1 ∧ execDrw x y n s = .next (latched s .addressOutOfBounds)) := by
  by_cases h : n = 0 ∨ s.i.toNat + (n - 1) ≤ 4095
  · refine .inl ⟨by omega, ?_⟩
    unfold execDrw
    rw [if_pos (by simpa [State.indexAddr] using h)]
    rfl
  · refine .inr ⟨by omega, by omega, ?_⟩
    unfold execDrw
    rw [if_neg (by simpa [State.indexAddr] using h)]
    rfl

/-- The sprite bytes at I, drawn from an origin, have their 1 bits where `spriteBit` says. -/
theorem rowsBit_bytesAt (ox oy n : Nat) (px : Fin 64) (py : Fin 32) :
    rowsBit ox oy (s.bytesAt (s.indexAddr 0) n) px py = spriteBit s ox oy n px py := by
  unfold rowsBit spriteBit State.bytesAt State.indexAddr
  simp only [List.length_map, List.length_range]
  by_cases h : ox ≤ px.val ∧ px.val < ox + 8 ∧ oy ≤ py.val ∧ py.val < oy + n
  · have hr : py.val - oy < n := by omega
    simp [h, hr]
  · simp only [h, decide_false, Bool.false_and]

/-- Each pixel after a draw. -/
theorem drawing_get (x y : Reg) (n : Nat) (px : Fin 64) (py : Fin 32) :
    (drawing s x y n).1.get px py =
      (s.fb.get px py ^^ spriteBit s ((s.reg x).toNat % 64) ((s.reg y).toNat % 32) n px py) := by
  rw [drawing, drawRows_get, rowsBit_bytesAt]
  rfl

/-- When a draw collides. -/
theorem drawing_hit (x y : Reg) (n : Nat) :
    (drawing s x y n).2 = true ↔
      ∃ px py, s.fb.get px py = true ∧
        spriteBit s ((s.reg x).toNat % 64) ((s.reg y).toNat % 32) n px py = true := by
  rw [drawing, drawRows_hit]
  simp only [rowsBit_bytesAt, originColumn, originRow, Bool.false_eq_true, false_or]

/-- A timer's decrement is natural-number subtraction. -/
theorem decrement_toNat (t : Byte) : (decrement t).toNat = t.toNat - 1 := by
  unfold decrement
  split
  · next h => simp [h]
  · next h =>
    have : t.toNat ≠ 0 := fun h0 => h (BitVec.eq_of_toNat_eq (by simpa using h0))
    have := t.isLt
    simp [BitVec.toNat_sub]
    omega

end Sys2Proof.Machine
end

