-- ==== Sys2Proof/Laws/PerInstr.lean ====
section
/-! SUPPORT. The family OpcodeRow: the word of every instruction carries the fixed bits of its row of spec/opcode_table.json
(spec/30_encoding.md R94, R95). One lemma per constructor. -/

namespace Sys2Proof.Laws.OpcodeRow

/-- The fixed bits of the instruction's row, as the table gives them: (hi, lo, value). -/
def fixed : Instr → List (Nat × Nat × Nat)
  | .cls => [(15, 0, 0xe0)]
  | .ret => [(15, 0, 0xee)]
  | .jp _ => [(15, 12, 0x1)]
  | .call _ => [(15, 12, 0x2)]
  | .seImm _ _ => [(15, 12, 0x3)]
  | .sneImm _ _ => [(15, 12, 0x4)]
  | .seReg _ _ => [(3, 0, 0x0), (15, 12, 0x5)]
  | .ldImm _ _ => [(15, 12, 0x6)]
  | .addImm _ _ => [(15, 12, 0x7)]
  | .ldReg _ _ => [(3, 0, 0x0), (15, 12, 0x8)]
  | .orReg _ _ => [(3, 0, 0x1), (15, 12, 0x8)]
  | .andReg _ _ => [(3, 0, 0x2), (15, 12, 0x8)]
  | .xorReg _ _ => [(3, 0, 0x3), (15, 12, 0x8)]
  | .addReg _ _ => [(3, 0, 0x4), (15, 12, 0x8)]
  | .subReg _ _ => [(3, 0, 0x5), (15, 12, 0x8)]
  | .shr _ _ => [(3, 0, 0x6), (15, 12, 0x8)]
  | .subnReg _ _ => [(3, 0, 0x7), (15, 12, 0x8)]
  | .shl _ _ => [(3, 0, 0xe), (15, 12, 0x8)]
  | .sneReg _ _ => [(3, 0, 0x0), (15, 12, 0x9)]
  | .ldI _ => [(15, 12, 0xa)]
  | .jpV0 _ => [(15, 12, 0xb)]
  | .rnd _ _ => [(15, 12, 0xc)]
  | .drw _ _ _ => [(15, 12, 0xd)]
  | .skp _ => [(7, 0, 0x9e), (15, 12, 0xe)]
  | .sknp _ => [(7, 0, 0xa1), (15, 12, 0xe)]
  | .ldVxDT _ => [(7, 0, 0x7), (15, 12, 0xf)]
  | .ldVxK _ => [(7, 0, 0xa), (15, 12, 0xf)]
  | .ldDTVx _ => [(7, 0, 0x15), (15, 12, 0xf)]
  | .ldSTVx _ => [(7, 0, 0x18), (15, 12, 0xf)]
  | .addI _ => [(7, 0, 0x1e), (15, 12, 0xf)]
  | .ldF _ => [(7, 0, 0x29), (15, 12, 0xf)]
  | .ldB _ => [(7, 0, 0x33), (15, 12, 0xf)]
  | .dump _ => [(7, 0, 0x55), (15, 12, 0xf)]
  | .load _ => [(7, 0, 0x65), (15, 12, 0xf)]

/-- The encoded word of a well-formed instruction has its row's fixed bits. -/
def Statement (i : Instr) : Prop :=
  i.wf = true → ∀ f ∈ fixed i, bits (encodeWord i) f.1 f.2.1 = f.2.2

theorem cls : Statement .cls := by
  intro _; decide

theorem ret : Statement .ret := by
  intro _; decide

theorem jp (nnn : Addr12) : Statement (.jp nnn) := by
  intro _
  simp [fixed, bits, encodeWord, formatA]
  omega

theorem call (nnn : Addr12) : Statement (.call nnn) := by
  intro _
  simp [fixed, bits, encodeWord, formatA]
  omega

theorem seImm (x : Reg) (kk : Byte) : Statement (.seImm x kk) := by
  intro _
  simp [fixed, bits, encodeWord, formatK]
  omega

theorem sneImm (x : Reg) (kk : Byte) : Statement (.sneImm x kk) := by
  intro _
  simp [fixed, bits, encodeWord, formatK]
  omega

theorem seReg (x y : Reg) : Statement (.seReg x y) := by
  intro _
  simp [fixed, bits, encodeWord, formatR]
  omega

theorem ldImm (x : Reg) (kk : Byte) : Statement (.ldImm x kk) := by
  intro _
  simp [fixed, bits, encodeWord, formatK]
  omega

theorem addImm (x : Reg) (kk : Byte) : Statement (.addImm x kk) := by
  intro _
  simp [fixed, bits, encodeWord, formatK]
  omega

theorem ldReg (x y : Reg) : Statement (.ldReg x y) := by
  intro _
  simp [fixed, bits, encodeWord, formatR]
  omega

theorem orReg (x y : Reg) : Statement (.orReg x y) := by
  intro _
  simp [fixed, bits, encodeWord, formatR]
  omega

theorem andReg (x y : Reg) : Statement (.andReg x y) := by
  intro _
  simp [fixed, bits, encodeWord, formatR]
  omega

theorem xorReg (x y : Reg) : Statement (.xorReg x y) := by
  intro _
  simp [fixed, bits, encodeWord, formatR]
  omega

theorem addReg (x y : Reg) : Statement (.addReg x y) := by
  intro _
  simp [fixed, bits, encodeWord, formatR]
  omega

theorem subReg (x y : Reg) : Statement (.subReg x y) := by
  intro _
  simp [fixed, bits, encodeWord, formatR]
  omega

theorem shr (x y : Reg) : Statement (.shr x y) := by
  intro _
  simp [fixed, bits, encodeWord, formatR]
  omega

theorem subnReg (x y : Reg) : Statement (.subnReg x y) := by
  intro _
  simp [fixed, bits, encodeWord, formatR]
  omega

theorem shl (x y : Reg) : Statement (.shl x y) := by
  intro _
  simp [fixed, bits, encodeWord, formatR]
  omega

theorem sneReg (x y : Reg) : Statement (.sneReg x y) := by
  intro _
  simp [fixed, bits, encodeWord, formatR]
  omega

theorem ldI (nnn : Addr12) : Statement (.ldI nnn) := by
  intro _
  simp [fixed, bits, encodeWord, formatA]
  omega

theorem jpV0 (nnn : Addr12) : Statement (.jpV0 nnn) := by
  intro _
  simp [fixed, bits, encodeWord, formatA]
  omega

theorem rnd (x : Reg) (kk : Byte) : Statement (.rnd x kk) := by
  intro _
  simp [fixed, bits, encodeWord, formatK]
  omega

theorem drw (x y : Reg) (n : Nat) : Statement (.drw x y n) := by
  intro h
  simp [Instr.wf] at h
  simp [fixed, bits, encodeWord, formatR]
  omega

theorem skp (x : Reg) : Statement (.skp x) := by
  intro _
  simp [fixed, bits, encodeWord, formatX]
  omega

theorem sknp (x : Reg) : Statement (.sknp x) := by
  intro _
  simp [fixed, bits, encodeWord, formatX]
  omega

theorem ldVxDT (x : Reg) : Statement (.ldVxDT x) := by
  intro _
  simp [fixed, bits, encodeWord, formatX]
  omega

theorem ldVxK (x : Reg) : Statement (.ldVxK x) := by
  intro _
  simp [fixed, bits, encodeWord, formatX]
  omega

theorem ldDTVx (x : Reg) : Statement (.ldDTVx x) := by
  intro _
  simp [fixed, bits, encodeWord, formatX]
  omega

theorem ldSTVx (x : Reg) : Statement (.ldSTVx x) := by
  intro _
  simp [fixed, bits, encodeWord, formatX]
  omega

theorem addI (x : Reg) : Statement (.addI x) := by
  intro _
  simp [fixed, bits, encodeWord, formatX]
  omega

theorem ldF (x : Reg) : Statement (.ldF x) := by
  intro _
  simp [fixed, bits, encodeWord, formatX]
  omega

theorem ldB (x : Reg) : Statement (.ldB x) := by
  intro _
  simp [fixed, bits, encodeWord, formatX]
  omega

theorem dump (x : Reg) : Statement (.dump x) := by
  intro _
  simp [fixed, bits, encodeWord, formatX]
  omega

theorem load (x : Reg) : Statement (.load x) := by
  intro _
  simp [fixed, bits, encodeWord, formatX]
  omega

end Sys2Proof.Laws.OpcodeRow
end

