-- ==== Sys2Proof/Tests/Slice0.lean ====
section
/-! SUPPORT. The model's own tests. Expected results are the spec's vectors (spec/95_test_vectors.md, their numbers in the
docstrings) or worked out by hand from the rule named; then one witness theorem for each statement that has hypotheses. -/

namespace Sys2Proof.Tests

open Sys2Proof Sys2Proof.Machine

/-! ## Helpers -/

/-- The reset state with some registers set. -/
def regs (values : List (Reg × Byte)) : State := values.foldl (fun s p => s.setReg p.1 p.2) State.reset

/-- The word stored at PC. -/
def placed (w : Word) (s : State) : State := s.storeBytes s.pc.toNat (bytesOfWord w)

/-- What `f` sees after one step; none if the step does not answer a next state. -/
def after {α : Type} (s : State) (f : State → α) : Option α :=
  match step s with
  | .next t => some (f t)
  | .fault _ => none
  | .refused _ => none

/-- The columns lit in a row of the frame buffer. -/
def litColumns (s : State) (y : Fin 32) : List Nat := (List.range 64).filter fun x => (s.fb[y]).getLsbD x

/-- A frame buffer with one row given as a word (bit x is column x), the rest clear. -/
def frameRow (y : Fin 32) (row : BitVec 64) : Frame := Frame.clear.set y row

/-! ## Well-formedness and configuration -/

/-- The row count is a 4-bit field: 16 rows do not fit (R91). -/
theorem test_wf_refuses_sixteen_rows : Instr.wf (.drw 0 0 16) = false := by decide

theorem test_wf_accepts_fifteen_rows : Instr.wf (.drw 15 15 15) = true := by decide

/-- FONT_BASE + 80 may be 0x200 and no more (R6). -/
theorem test_config_font_base : Config.wf { fontBase := 0x1B0 } = true ∧ Config.wf { fontBase := 0x1B1 } = false := by decide

/-- STACK_LIMIT is none or positive (R6). -/
theorem test_config_stack_limit : Config.wf { stackLimit := some 1 } = true ∧ Config.wf { stackLimit := some 0 } = false := by
  decide

/-! ## Decoding: words written bit by bit from the patterns of R95 -/

theorem test_decode_format_z :
    decodeWord 0b0000_0000_1110_0000 = .ok .cls ∧ decodeWord 0b0000_0000_1110_1110 = .ok .ret := by decide

theorem test_decode_format_a :
    decodeWord 0b0001_1010_1011_1100 = .ok (.jp 0xABC) ∧ decodeWord 0b0010_0011_0000_0001 = .ok (.call 0x301) ∧
    decodeWord 0b1010_0001_0010_0011 = .ok (.ldI 0x123) ∧ decodeWord 0b1011_1111_1111_1110 = .ok (.jpV0 0xFFE) := by decide

theorem test_decode_format_k :
    decodeWord 0b0011_1100_0111_1111 = .ok (.seImm 0xC 0x7F) ∧ decodeWord 0b0100_0001_1000_0000 = .ok (.sneImm 0x1 0x80) ∧
    decodeWord 0b0110_1010_0100_0010 = .ok (.ldImm 0xA 0x42) ∧ decodeWord 0b0111_1111_0000_0101 = .ok (.addImm 0xF 0x05) ∧
    decodeWord 0b1100_0011_0000_1111 = .ok (.rnd 0x3 0x0F) := by decide

theorem test_decode_format_r_skips :
    decodeWord 0b0101_0001_0010_0000 = .ok (.seReg 0x1 0x2) ∧ decodeWord 0b1001_0010_0001_0000 = .ok (.sneReg 0x2 0x1) := by decide

theorem test_decode_format_r_datapath :
    decodeWord 0b1000_0001_0010_0000 = .ok (.ldReg 1 2) ∧ decodeWord 0b1000_0001_0010_0001 = .ok (.orReg 1 2) ∧
    decodeWord 0b1000_0001_0010_0010 = .ok (.andReg 1 2) ∧ decodeWord 0b1000_0001_0010_0011 = .ok (.xorReg 1 2) ∧
    decodeWord 0b1000_1010_1011_0100 = .ok (.addReg 0xA 0xB) ∧ decodeWord 0b1000_0001_0010_0101 = .ok (.subReg 1 2) ∧
    decodeWord 0b1000_0001_1111_0110 = .ok (.shr 1 15) ∧ decodeWord 0b1000_0001_0010_0111 = .ok (.subnReg 1 2) ∧
    decodeWord 0b1000_1111_0000_1110 = .ok (.shl 15 0) := by decide

theorem test_decode_format_d : decodeWord 0b1101_1010_1011_0101 = .ok (.drw 0xA 0xB 5) := by decide

theorem test_decode_format_x :
    decodeWord 0b1110_0001_1001_1110 = .ok (.skp 1) ∧ decodeWord 0b1110_0001_1010_0001 = .ok (.sknp 1) ∧
    decodeWord 0b1111_0100_0000_0111 = .ok (.ldVxDT 4) ∧ decodeWord 0b1111_0011_0000_1010 = .ok (.ldVxK 3) ∧
    decodeWord 0b1111_0100_0001_0101 = .ok (.ldDTVx 4) ∧ decodeWord 0b1111_0100_0001_1000 = .ok (.ldSTVx 4) ∧
    decodeWord 0b1111_0001_0001_1110 = .ok (.addI 1) ∧ decodeWord 0b1111_0001_0010_1001 = .ok (.ldF 1) ∧
    decodeWord 0b1111_0001_0011_0011 = .ok (.ldB 1) ∧ decodeWord 0b1111_1111_0101_0101 = .ok (.dump 15) ∧
    decodeWord 0b1111_0001_0110_0101 = .ok (.load 1) := by decide

/-- The words of E1 to E15. -/
def unknownWords : List Word :=
  [0x0000, 0x00E1, 0x00FE, 0x01E0, 0x0123, 0x5121, 0x9125, 0x8128, 0x812F, 0xE19F, 0xE1FF, 0xF100, 0xF175, 0xF1FF, 0xFFFF]

/-- E1 to E15: unknown combinations. -/
theorem test_decode_unknown :
    unknownWords.map decodeWord = unknownWords.map (fun w => .error (.unknownCombination w)) := by decide

/-- "The patterns are pairwise disjoint" (R95). -/
theorem test_opcode_rows_disjoint :
    opcodeRows.Pairwise (fun a b => (a.1 ^^^ b.1) &&& (a.2 &&& b.2) ≠ 0) := by decide

/-- The opcode table's bit numbering: bit 0 is the least significant bit of the word. -/
theorem test_decode_table_word :
    decodeTableWord 16 0x8AB4 = some (.addReg 0xA 0xB) ∧ decodeTableWord 16 0x00FE = none := by decide

/-! ## Instructions, one step each -/

/-- DR12. -/
theorem test_cls :
    after (placed 0x00E0 { State.reset with fb := (Frame.clear.set 0 8).set 1 (BitVec.twoPow 64 36) })
      (fun t => (t.fb, t.pc)) = some (Frame.clear, 0x0202) := by decide

/-- T7. -/
theorem test_ret :
    after (placed 0x00EE { State.reset with pc := 0x0300, stack := [0x0202, 0x0250] }) (fun t => (t.pc, t.stack)) =
      some (0x0250, [0x0202]) := by decide

/-- T8. -/
theorem test_ret_empty :
    after (placed 0x00EE State.reset) (fun t => (t.errCode, t.pc, t.stack)) = some (1, 0x0202, []) := by decide

/-- T1. -/
theorem test_jp : after (placed 0x1ABC State.reset) (fun t => t.pc) = some 0x0ABC := by decide

/-- T5. -/
theorem test_call_at_top :
    after (placed 0x2300 { State.reset with pc := 0x0FFE }) (fun t => (t.pc, t.stack)) = some (0x0300, [0x1000]) := by decide

/-- R235: at the limit nothing is pushed and PC stays a + 2. -/
theorem test_call_at_limit :
    after (placed 0x2300 { State.reset with cfg := { stackLimit := some 1 }, stack := [0x0208] })
      (fun t => (t.errCode, t.pc, t.stack)) = some (4, 0x0202, [0x0208]) := by decide

/-- T9, T10. -/
theorem test_se_imm :
    after (placed 0x3011 (regs [(0, 0x11)])) (fun t => t.pc) = some 0x0204 ∧
    after (placed 0x3012 (regs [(0, 0x11)])) (fun t => t.pc) = some 0x0202 := by decide

/-- T22: a skip over the end of Memory leaves PC at 0x1002. -/
theorem test_se_imm_at_top :
    after (placed 0x3000 { State.reset with pc := 0x0FFE }) (fun t => t.pc) = some 0x1002 := by decide

/-- T11, T12. -/
theorem test_sne_imm :
    after (placed 0x4011 (regs [(0, 0x11)])) (fun t => t.pc) = some 0x0202 ∧
    after (placed 0x4012 (regs [(0, 0x11)])) (fun t => t.pc) = some 0x0204 := by decide

/-- T13, T14. -/
theorem test_se_reg :
    after (placed 0x5120 (regs [(1, 7), (2, 7)])) (fun t => t.pc) = some 0x0204 ∧
    after (placed 0x5120 (regs [(1, 7), (2, 8)])) (fun t => t.pc) = some 0x0202 := by decide

/-- T15, T16. -/
theorem test_sne_reg :
    after (placed 0x9120 (regs [(1, 7), (2, 8)])) (fun t => t.pc) = some 0x0204 ∧
    after (placed 0x9120 (regs [(1, 7), (2, 7)])) (fun t => t.pc) = some 0x0202 := by decide

/-- T26, on an odd PC. -/
theorem test_ld_imm :
    after (placed 0x6A42 { State.reset with pc := 0x0201 }) (fun t => (t.reg 0xA, t.pc)) = some (0x42, 0x0203) := by decide

/-- A3. -/
theorem test_add_imm_wraps_without_flag :
    after (placed 0x7302 (regs [(3, 0xFF)])) (fun t => (t.reg 3, t.reg 15)) = some (0x01, 0x00) := by decide

/-- A6. -/
theorem test_ld_reg :
    after (placed 0x8120 (regs [(1, 0x12), (2, 0x34)])) (fun t => (t.reg 1, t.reg 2)) = some (0x34, 0x34) := by decide

/-- A7. -/
theorem test_or :
    after (placed 0x8121 (regs [(1, 0xF0), (2, 0x0F), (15, 1)])) (fun t => (t.reg 1, t.reg 15)) = some (0xFF, 1) := by decide

/-- A8. -/
theorem test_and :
    after (placed 0x8122 (regs [(1, 0xF0), (2, 0x3C), (15, 1)])) (fun t => (t.reg 1, t.reg 15)) = some (0x30, 1) := by decide

/-- A9. -/
theorem test_xor :
    after (placed 0x8123 (regs [(1, 0xF0), (2, 0x3C), (15, 1)])) (fun t => (t.reg 1, t.reg 15)) = some (0xCC, 1) := by decide

/-- A15: old VF is the addend. -/
theorem test_add_reg_from_vf :
    after (placed 0x81F4 (regs [(1, 0x01), (15, 0xFF)])) (fun t => (t.reg 1, t.reg 15)) = some (0x00, 1) := by decide

/-- A13: the flag is written last. -/
theorem test_add_reg_to_vf :
    after (placed 0x8F24 (regs [(15, 0x80), (2, 0x90)])) (fun t => t.reg 15) = some 1 := by decide

/-- A18. -/
theorem test_sub_borrows :
    after (placed 0x8125 (regs [(1, 3), (2, 5)])) (fun t => (t.reg 1, t.reg 15)) = some (0xFE, 0) := by decide

/-- A19. -/
theorem test_sub_equal :
    after (placed 0x8125 (regs [(1, 7), (2, 7)])) (fun t => (t.reg 1, t.reg 15)) = some (0x00, 1) := by decide

/-- A22. -/
theorem test_subn :
    after (placed 0x8127 (regs [(1, 3), (2, 5)])) (fun t => (t.reg 1, t.reg 2, t.reg 15)) = some (0x02, 0x05, 1) := by decide

/-- A25: Vy is ignored. -/
theorem test_shr :
    after (placed 0x8126 (regs [(1, 0x05), (2, 0xEE)])) (fun t => (t.reg 1, t.reg 2, t.reg 15)) = some (0x02, 0xEE, 1) := by
  decide

/-- A29. -/
theorem test_shr_of_vf : after (placed 0x8F06 (regs [(15, 0x02)])) (fun t => t.reg 15) = some 0 := by decide

/-- A30. -/
theorem test_shl :
    after (placed 0x812E (regs [(1, 0x81), (2, 0xEE)])) (fun t => (t.reg 1, t.reg 2, t.reg 15)) = some (0x02, 0xEE, 1) := by
  decide

/-- A33. -/
theorem test_shl_of_vf : after (placed 0x8F0E (regs [(15, 0x7F)])) (fun t => t.reg 15) = some 0 := by decide

/-- A34: the byte on the random input is masked and consumed. -/
theorem test_rnd :
    after (placed 0xC30F { State.reset with rndSupply := [0xB7, 0x11] }) (fun t => (t.reg 3, t.rndSupply)) =
      some (0x07, [0x11]) := by decide

/-- A35: with mask 0 the result is 0 whatever the byte is. -/
theorem test_rnd_mask_zero : after (placed 0xC300 { State.reset with rndSupply := [0xB7] }) (fun t => t.reg 3) = some 0 := by
  decide

/-- M1. -/
theorem test_ld_i : after (placed 0xA123 State.reset) (fun t => t.i) = some 0x0123 := by decide

/-- M3: the flag is not cleared. -/
theorem test_add_i_keeps_flag :
    after (placed 0xF11E { regs [(1, 1), (15, 1)] with i := 0x0FFE }) (fun t => (t.i, t.reg 15)) = some (0x0FFF, 1) := by decide

/-- M7: the old VF is the addend and the flag overwrites it. -/
theorem test_add_i_of_vf :
    after (placed 0xFF1E { regs [(15, 0x20)] with i := 0x0FF0 }) (fun t => (t.i, t.reg 15)) = some (0x1010, 1) := by decide

/-- M12: only the low 4 bits of Vx count. -/
theorem test_ld_f : after (placed 0xF129 (regs [(1, 0x1A)])) (fun t => t.i) = some 0x0032 := by decide

/-- M13. -/
theorem test_ld_b :
    after (placed 0xF133 { regs [(1, 0xFE)] with i := 0x0300 }) (fun t => (t.bytesAt 0x300 3, t.i)) =
      some ([2, 5, 4], 0x0300) := by decide

/-- M18. -/
theorem test_ld_b_out_of_bounds :
    after (placed 0xF133 { regs [(1, 0x7B)] with i := 0x0FFE }) (fun t => (t.errCode, t.pc, t.bytesAt 0xFFE 2)) =
      some (2, 0x0202, [0, 0]) := by decide

/-- M19. -/
theorem test_dump :
    after (placed 0xF155 { regs [(0, 0xAA), (1, 0x55), (2, 0x77)] with i := 0x0300 }) (fun t => (t.bytesAt 0x300 3, t.i)) =
      some ([0xAA, 0x55, 0], 0x0300) := by decide

/-- M21. -/
theorem test_dump_out_of_bounds :
    after (placed 0xF155 { regs [(0, 0xAA), (1, 0x55)] with i := 0x0FFF }) (fun t => (t.errCode, t.byteAt 0xFFF)) =
      some (2, 0) := by decide

/-- M25. -/
theorem test_load :
    after (placed 0xF165 ({ State.reset with i := 0x0300 }.storeBytes 0x300 [0x11, 0x22, 0x33]))
      (fun t => (t.reg 0, t.reg 1, t.reg 2, t.i)) = some (0x11, 0x22, 0, 0x0300) := by decide

/-- M29. -/
theorem test_load_out_of_bounds : after (placed 0xF065 { State.reset with i := 0x1000 }) (fun t => t.errCode) = some 2 := by
  decide

/-- DR14: the eighth bit is clipped, not wrapped to column 0. -/
theorem test_drw_clips :
    after (placed 0xD011 ({ regs [(0, 0x39)] with i := 0x0310, fb := frameRow 0 1 }.storeBytes 0x310 [0xFF]))
      (fun t => (litColumns t 0, t.reg 15)) = some ([0, 57, 58, 59, 60, 61, 62, 63], 0) := by decide

/-- DR11: Vx = VF is read before VF is written; DR6: a pixel that goes off sets VF. -/
theorem test_drw_vf :
    after (placed 0xDF01 ({ regs [(15, 5)] with i := 0x0311 }.storeBytes 0x311 [0x80]))
      (fun t => (litColumns t 0, t.reg 15)) = some ([5], 0) ∧
    after (placed 0xD011 ({ State.reset with i := 0x0310, fb := frameRow 0 1 }.storeBytes 0x310 [0xFF]))
      (fun t => (litColumns t 0, t.reg 15)) = some ([1, 2, 3, 4, 5, 6, 7], 1) := by decide

/-- K5: the low 4 bits of V1 name the key. -/
theorem test_skp :
    after (placed 0xE19E ((regs [(1, 0x15)]).setKey 5 true)) (fun t => t.pc) = some 0x0204 ∧
    after (placed 0xE19E ((regs [(1, 0x01)]).setKey 5 true)) (fun t => t.pc) = some 0x0202 := by decide

/-- K3, K4. -/
theorem test_sknp :
    after (placed 0xE1A1 (regs [(1, 5)])) (fun t => t.pc) = some 0x0204 ∧
    after (placed 0xE1A1 ((regs [(1, 5)]).setKey 5 true)) (fun t => t.pc) = some 0x0202 := by decide

/-- K7: no key down. -/
theorem test_wait_for_key_waits :
    after (placed 0xF30A (regs [(3, 0x77)])) (fun t => (t.reg 3, t.pc)) = some (0x77, 0x0200) := by decide

/-- K8: the lowest key. -/
theorem test_wait_for_key_lowest :
    after (placed 0xF30A ((State.reset.setKey 7 true).setKey 3 true)) (fun t => (t.reg 3, t.pc)) = some (3, 0x0202) := by decide

/-- K10. -/
theorem test_ld_vx_dt :
    after (placed 0xF407 { State.reset with dt := 0x2A }) (fun t => (t.reg 4, t.dt)) = some (0x2A, 0x2A) := by decide

/-- K11. -/
theorem test_ld_dt_vx : after (placed 0xF415 (regs [(4, 0x3C)])) (fun t => t.dt) = some 0x3C := by decide

/-- K12, K13. -/
theorem test_ld_st_vx :
    after (placed 0xF418 (regs [(4, 5)])) (fun t => (t.st, t.soundActive)) = some (5, true) ∧
    after (placed 0xF418 { State.reset with st := 9 }) (fun t => (t.st, t.soundActive)) = some (0, false) := by decide

/-! ## Events -/

/-- E1: an unknown word is reported and skipped. -/
theorem test_unknown_word :
    after State.reset (fun t => (t.pc, t.reports, t.errCode)) = some (0x0202, [0x0000], 0) := by decide

/-- T24: a fetch at 0x0FFF faults with PC unchanged. -/
theorem test_fetch_out_of_bounds :
    after { State.reset with pc := 0x0FFF } (fun t => (t.errCode, t.pc)) = some (2, 0x0FFF) := by decide

/-- T25: the last fetchable address. -/
theorem test_fetch_last_word :
    after (placed 0x6007 { State.reset with pc := 0x0FFE }) (fun t => (t.reg 0, t.pc)) = some (0x07, 0x1000) := by decide

/-- K15, with and without SOUND_GATED. -/
theorem test_tick_sound :
    after { State.reset with schedule := [.tick], st := 3 } (fun t => (t.dt, t.st)) = some (0, 2) ∧
    after { State.reset with schedule := [.tick], st := 3, cfg := { soundGated := true } } (fun t => (t.dt, t.st)) =
      some (0, 3) := by decide

/-- K20: a tick acts on a halted machine. -/
theorem test_tick_while_halted :
    after { State.reset with schedule := [.tick], dt := 2, err := some .addressOutOfBounds } (fun t => (t.dt, t.errCode)) =
      some (1, 2) := by decide

/-- X6 and X1: Reset clears ERR and loads the ROM. -/
theorem test_reset_event :
    after { regs [(1, 9)] with schedule := [.reset [0x12, 0x00]], err := some .stackUnderflow, pc := 0x0FFF }
      (fun t => (t.errCode, t.pc, t.reg 1, t.bytesAt 0x1FF 4)) = some (0, 0x0200, 0, [0, 0x12, 0, 0]) := by decide

/-- S1: fetch is big-endian. -/
theorem test_fetch_big_endian : (placed 0x1234 State.reset).bytesAt 0x200 2 = [0x12, 0x34] := by decide

/-- `withFetchWord` on the reset state and on a state whose PC is outside Memory: the next step runs the word. -/
theorem test_with_fetch_word :
    after (State.reset.withFetchWord 16 0x6A42) (fun t => t.reg 0xA) = some 0x42 ∧
    after (({ State.reset with pc := 0x10FE } : State).withFetchWord 16 0x6A42) (fun t => t.reg 0xA) = some 0x42 := by decide

/-- R271: the driver's frame. -/
theorem test_driver_frame : driverFrame 2 = [.step, .step, .tick] := by decide

/-! ## Witnesses: for each statement with hypotheses, concrete values that meet them, clause by clause -/

/-- The reset state with PC at the last fetchable address. -/
def at0FFE : State := { State.reset with pc := 0x0FFE }

theorem witness_DecodeOfEncodeIsIdentity : Instr.wf (.drw 15 15 15) = true ∧ Instr.wf .cls = true := by decide

theorem witness_EncodeOfDecodeIsIdentity :
    decodeWord 0xDFFF = .ok (.drw 15 15 15) ∧ decodeWord 0x00E0 = .ok .cls := by decide

/-- Each clause of the opcode map is met by its row's word with every operand bit 0 and with every operand bit 1, whose fields
exist; the last clause is met by 0x0000. -/
theorem witness_DecodeFollowsOpcodeMap :
    opcodeRows.map (fun row => row.1 &&& row.2) = opcodeRows.map Prod.fst ∧
    opcodeRows.map (fun row => (row.1 ||| ~~~row.2) &&& row.2) = opcodeRows.map Prod.fst ∧
    opcodeRows.all (fun row => decide ((0x0000 : Word) &&& row.2 ≠ row.1)) = true ∧
    (fieldX 0xD125).val = (0xD125 : Word).toNat / 256 % 16 ∧ (fieldY 0xD125).val = (0xD125 : Word).toNat / 16 % 16 ∧
    (fieldKK 0xD125).toNat = (0xD125 : Word).toNat % 256 ∧ (fieldNNN 0xD125).toNat = (0xD125 : Word).toNat % 4096 ∧
    fieldN 0xD125 = (0xD125 : Word).toNat % 16 := by decide

/-- A word of each line of the family table, and one that is none of them. -/
theorem witness_UnknownCombinationsAreTheFamilyTable :
    [0x0FFF, 0x5FFF, 0x8FFF, 0x9FF1, 0xEF9F, 0xFF66, 0x1000].map (fun w : Word => (w.toNat / 4096, w.toNat % 16, w.toNat % 256)) =
      [(0x0, 0xF, 0xFF), (0x5, 0xF, 0xFF), (0x8, 0xF, 0xFF), (0x9, 0x1, 0xF1), (0xE, 0xF, 0x9F), (0xF, 0x6, 0x66),
        (0x1, 0x0, 0x00)] := by decide

/-- The halted clause; the fetch fault at PC = 4095; the last fetchable PC with an instruction; an unknown word, with the Step
scheduled. -/
theorem witness_StepRunsDecodedInstruction :
    ((latched State.reset .stackUnderflow).stepNext (latched State.reset .stackUnderflow) ∧
      ¬ (latched State.reset .stackUnderflow).running) ∧
    (({ State.reset with pc := 0x0FFF } : State).stepNext { State.reset with pc := 0x0FFF } ∧
      ({ State.reset with pc := 0x0FFF } : State).running ∧ 4095 ≤ ({ State.reset with pc := 0x0FFF } : State).pc.toNat) ∧
    ((placed 0x6007 at0FFE).stepNext (placed 0x6007 at0FFE) ∧ (placed 0x6007 at0FFE).running ∧
      (placed 0x6007 at0FFE).pc.toNat ≤ 4094 ∧ (placed 0x6007 at0FFE).wordAtPc 0x6007 ∧
      decodeWord 0x6007 = .ok (.ldImm 0 7)) ∧
    (({ State.reset with schedule := [.step] } : State).stepNext State.reset ∧ State.reset.running ∧
      State.reset.pc.toNat ≤ 4094 ∧ ({ State.reset with schedule := [.step] } : State).wordAtPc 0x0000 ∧
      ∀ i, decodeWord 0x0000 ≠ .ok i) :=
  ⟨⟨.inl ⟨rfl, rfl⟩, fun h => nomatch h⟩, ⟨.inl ⟨rfl, rfl⟩, rfl, by decide⟩,
    ⟨.inl ⟨rfl, rfl⟩, rfl, by decide, by unfold State.wordAtPc; decide, rfl⟩,
    ⟨.inr ⟨[], rfl, rfl⟩, rfl, by decide, by unfold State.wordAtPc; decide, fun _ h => nomatch h⟩⟩

/-- A halted machine whose next event is a tick. -/
theorem witness_HaltedUntilReset :
    (latched { State.reset with dt := 2, schedule := [.tick] } .addressOutOfBounds).err = some .addressOutOfBounds ∧
    step (latched { State.reset with dt := 2, schedule := [.tick] } .addressOutOfBounds) =
      .next (latched { State.reset with dt := 1 } .addressOutOfBounds) := ⟨rfl, rfl⟩

theorem witness_FaultCodesOfErr : State.reset.running := rfl

/-- Each site at its first out-of-bounds index, and at I = 0xFFFF; an instruction that latches the code. -/
theorem witness_AddressOutOfBoundsSites :
    (({ State.reset with pc := 0x0FFF } : State).stepNext { State.reset with pc := 0x0FFF } ∧
      ({ State.reset with pc := 0x0FFF } : State).running ∧ 4095 ≤ ({ State.reset with pc := 0x0FFF } : State).pc.toNat) ∧
    4095 < ({ State.reset with i := 0x0FFE } : State).i.toNat + 2 ∧
    4095 < ({ State.reset with i := 0x0FFF } : State).i.toNat + (1 : Reg).val ∧
    (1 ≤ 2 ∧ 4095 < ({ State.reset with i := 0x0FFF } : State).i.toNat + 2 - 1) ∧
    4095 < ({ State.reset with i := 0xFFFF } : State).i.toNat + (0 : Reg).val ∧
    (exec (.dump 1) { State.reset with i := 0x0FFF } =
        .next (latched { State.reset with i := 0x0FFF } .addressOutOfBounds) ∧
      (latched { State.reset with i := 0x0FFF } .addressOutOfBounds).err = some .addressOutOfBounds) :=
  ⟨⟨.inl ⟨rfl, rfl⟩, rfl, by decide⟩, by decide, by decide, by decide, by decide, rfl, rfl⟩

/-- An empty stack; a stack at the limit 1; instructions that latch each code. -/
theorem witness_StackFaultSites :
    State.reset.stack = [] ∧
    ({ State.reset with cfg := { stackLimit := some 1 }, stack := [0x0208] } : State).cfg.stackLimit =
      some ({ State.reset with cfg := { stackLimit := some 1 }, stack := [0x0208] } : State).stack.length ∧
    exec .ret State.reset = .next (latched State.reset .stackUnderflow) ∧
    exec (.call 0x300) { State.reset with cfg := { stackLimit := some 1 }, stack := [0x0208] } =
      .next (latched { State.reset with cfg := { stackLimit := some 1 }, stack := [0x0208] } .stackOverflow) :=
  ⟨rfl, rfl, rfl, rfl⟩

theorem witness_ReturnPopsNewestEntry :
    ({ State.reset with stack := [0x0202, 0x0250] } : State).stack = [0x0202] ++ [0x0250] ∧ State.reset.stack = [] := by decide

/-- Below the limit (none; 2 with one entry) and at it. -/
theorem witness_CallPushesPc :
    State.reset.cfg.stackLimit ≠ some State.reset.stack.length ∧
    ({ State.reset with cfg := { stackLimit := some 2 }, stack := [0x0208] } : State).cfg.stackLimit ≠ some 1 ∧
    ({ State.reset with cfg := { stackLimit := some 1 }, stack := [0x0208] } : State).cfg.stackLimit = some 1 := by decide

theorem witness_CallThenReturnResumes :
    State.reset.running ∧
    exec (.call 0x300) State.reset = .next { State.reset with pc := 0x0300, stack := [0x0200] } ∧
    ({ State.reset with pc := 0x0300, stack := [0x0200] } : State).running ∧
    ({ State.reset with pc := 0x0456, stack := [0x0200] } : State).stack = [0x0200] := ⟨rfl, rfl, rfl, rfl⟩

theorem witness_AddSubtractWithFlag :
    255 = ((regs [(15, 0xFF), (2, 0x80)]).reg 15).toNat ∧ 128 = ((regs [(15, 0xFF), (2, 0x80)]).reg 2).toNat := by decide

theorem witness_ShiftsMoveBoundaryBit : 129 = ((regs [(15, 0x81)]).reg 15).toNat := by decide

theorem witness_RandomIsMaskedInput :
    ({ State.reset with rndSupply := [0xB7, 0x11] } : State).rndSupply = 0xB7 :: [0x11] ∧ State.reset.rndSupply = [] := by decide

/-- The sum at the boundary of the flag (0x0FFF, 0x1000) and at the wrap. -/
theorem witness_IndexAddAndFontAddress :
    (0x0FFF = ({ regs [(1, 1)] with i := 0x0FFE } : State).i.toNat + ((regs [(1, 1)]).reg 1).toNat ∧ 0x0FFF ≤ 0x0FFF) ∧
    (0x1000 = ({ regs [(1, 1)] with i := 0x0FFF } : State).i.toNat + ((regs [(1, 1)]).reg 1).toNat ∧ 0x1000 > 0x0FFF) ∧
    0x10001 = ({ regs [(1, 2)] with i := 0xFFFF } : State).i.toNat + ((regs [(1, 2)]).reg 1).toNat ∧
    State.reset.cfg.wf = true := by decide

theorem witness_StoreBcdDigits :
    254 = ((regs [(1, 0xFE)]).reg 1).toNat ∧ Memory.wf State.reset.cfg State.reset.mem = true ∧
    ({ regs [(1, 0xFE)] with i := 0x0FFD } : State).indexAddr 2 ≤ 4095 ∧
    4095 < ({ regs [(1, 0xFE)] with i := 0x0FFE } : State).indexAddr 2 := by decide

theorem witness_DumpStoresRegisters :
    Memory.wf State.reset.cfg State.reset.mem = true ∧
    ({ State.reset with i := 0x0FF0 } : State).indexAddr (15 : Reg).val ≤ 4095 ∧
    4095 < ({ State.reset with i := 0x0FF1 } : State).indexAddr (15 : Reg).val := by decide

theorem witness_LoadReadsRegisters :
    ({ State.reset with i := 0x0FFF } : State).indexAddr (0 : Reg).val ≤ 4095 ∧
    4095 < ({ State.reset with i := 0x0FFF } : State).indexAddr (1 : Reg).val := by decide

/-- The program P5: V0 = 0x62, V1 = 0x2A dumped at 0x208 and fetched there. -/
theorem witness_DumpedCodeIsFetched :
    Memory.wf State.reset.cfg State.reset.mem = true ∧ State.reset.running ∧
    exec (.dump 1) { regs [(0, 0x62), (1, 0x2A)] with i := 0x0208 } =
      .next { regs [(0, 0x62), (1, 0x2A)] with i := 0x0208, mem := [(0x208, 0x62), (0x209, 0x2A)] } ∧
    ({ regs [(0, 0x62), (1, 0x2A)] with i := 0x0208, mem := [(0x208, 0x62), (0x209, 0x2A)] } : State).running ∧
    (1 : Reg).val = (0 : Reg).val + 1 ∧ (1 : Reg).val ≤ (1 : Reg).val ∧
    ({ State.reset with pc := 0x0208, mem := [(0x208, 0x62), (0x209, 0x2A)] } : State).pc.toNat =
      ({ regs [(0, 0x62), (1, 0x2A)] with i := 0x0208 } : State).indexAddr 0 ∧
    ({ State.reset with pc := 0x0208, mem := [(0x208, 0x62), (0x209, 0x2A)] } : State).wordAtPc 0x622A :=
  ⟨rfl, rfl, rfl, rfl, rfl, by decide, by decide, by unfold State.wordAtPc; decide⟩

/-- n = 0 at any I; the last sprite byte at 4095; one byte further; a draw that turns a pixel off, and one that does not. -/
theorem witness_DrawXorsClippedSprite :
    63 = ((regs [(0, 0xFF)]).reg 0).toNat % 64 ∧ 31 = ((regs [(0, 0xFF)]).reg 0).toNat % 32 ∧
    (0 = 0 ∨ ({ State.reset with i := 0xFFFF } : State).i.toNat + 0 - 1 ≤ 4095) ∧
    (1 = 0 ∨ ({ State.reset with i := 0x0FFF } : State).i.toNat + 1 - 1 ≤ 4095) ∧
    (1 ≤ 2 ∧ 4095 < ({ State.reset with i := 0x0FFF } : State).i.toNat + 2 - 1) := by decide

theorem witness_DrawTwiceRestoresAndGlyphZero :
    ((0 : Reg) ≠ 15 ∧ (1 : Reg) ≠ 15 ∧
      after (placed 0xD011 { State.reset with i := 0x0000 }) (fun t => litColumns t 0) = some [0, 1, 2, 3] ∧
      (∃ t, exec (.drw 0 1 1) State.reset = .next t ∧ t.running ∧ State.reset.fb.get 0 0 = false ∧
        t.fb.get 0 0 = true ∧ ∃ u, exec (.drw 0 1 1) t = .next u)) ∧
    (State.reset.running ∧ State.reset.fb = Frame.clear ∧ State.reset.reg 0 = 0 ∧ State.reset.reg 1 = 0 ∧
      State.reset.i.toNat + 4 ≤ 4095 ∧ State.reset.bytesAt State.reset.i.toNat 5 = [0xF0, 0x90, 0x90, 0x90, 0xF0]) :=
  ⟨⟨by decide, by decide, by decide, _, rfl, rfl, rfl, rfl, _, rfl⟩, rfl, rfl, rfl, rfl, by decide, by decide⟩

theorem witness_KeySkips : (5 : Key).val = ((regs [(1, 0x15)]).reg 1).toNat % 16 := by decide

/-- Key 3 is the lowest of 3 and 7; no key is down at reset; a wait-for-key at the last fetchable address with every key up. -/
theorem witness_WaitForKeyStoresLowestOrRewinds :
    (((State.reset.setKey 7 true).setKey 3 true).keyPressed 3 = true ∧
      (∀ j : Key, j < 3 → ((State.reset.setKey 7 true).setKey 3 true).keyPressed j = false)) ∧
    (∀ key : Key, State.reset.keyPressed key = false) ∧
    ((placed 0xF30A at0FFE).stepNext (placed 0xF30A at0FFE) ∧ (placed 0xF30A at0FFE).running ∧
      (placed 0xF30A at0FFE).pc.toNat ≤ 4094 ∧ (placed 0xF30A at0FFE).wordAtPc 0xF30A ∧
      decodeWord 0xF30A = .ok (.ldVxK 3) ∧ ∀ key : Key, (placed 0xF30A at0FFE).keyPressed key = false) :=
  ⟨by decide, by decide, .inl ⟨rfl, rfl⟩, rfl, by decide, by unfold State.wordAtPc; decide, rfl, by decide⟩

/-- A scheduled tick and a scheduled key event, and their steps. -/
theorem witness_ReadOutIsRowMajor :
    ({ State.reset with schedule := [.tick] } : State).schedule = .tick :: [] ∧
    step { State.reset with schedule := [.tick] } = .next State.reset ∧
    ({ State.reset with schedule := [.press 15] } : State).schedule = .press 15 :: [] ∧
    step { State.reset with schedule := [.press 15] } = .next (State.reset.setKey 15 true) := ⟨rfl, rfl, rfl, rfl⟩

/-- A scheduled tick, with the sound timer's decrement gated off, and with each way it is not. -/
theorem witness_TickCountsDown :
    ({ State.reset with schedule := [.tick], st := 3, cfg := { soundGated := true } } : State).schedule = [.tick] ∧
    (({ State.reset with cfg := { soundGated := true } } : State).cfg.soundGated = true ∧ State.reset.dt = 0) ∧
    State.reset.cfg.soundGated = false ∧ ({ State.reset with dt := 1 } : State).dt ≠ 0 := by decide

theorem witness_PressAndReleaseSetKeys :
    ({ State.reset with schedule := [.press 15] } : State).schedule = [.press 15] ∧
    ({ State.reset.setKey 15 true with schedule := [.release 15] } : State).schedule = [.release 15] ∧
    (0 : Key) ≠ 15 := by decide

theorem witness_KeysChangeOnlyByEvents :
    step { State.reset with schedule := [.press 15] } = .next (State.reset.setKey 15 true) ∧
    (State.reset.setKey 15 true).keyPressed 15 ≠ ({ State.reset with schedule := [.press 15] } : State).keyPressed 15 :=
  ⟨rfl, by decide⟩

/-- The longest ROM that fits and the shortest that does not. -/
theorem witness_ResetEventLoadsRom :
    State.reset.cfg.wf = true ∧
    ({ State.reset with schedule := [.reset (List.replicate 3584 0x12)] } : State).schedule =
      .reset (List.replicate 3584 0x12) :: [] ∧
    (List.replicate 3584 (0x12 : Byte)).length ≤ 3584 ∧ 3584 < (List.replicate 3585 (0x12 : Byte)).length :=
  ⟨by decide, rfl, by rw [List.length_replicate], by rw [List.length_replicate]; decide⟩

/-- A state that meets the invariant at the bounds it names, and its step. -/
theorem witness_StepKeepsInvariant :
    State.Inv { State.reset with pc := 0x10FE, stack := [0x1000], cfg := { stackLimit := some 1 } } ∧
    step { State.reset with pc := 0x10FE, stack := [0x1000], cfg := { stackLimit := some 1 } } =
      .next (latched { State.reset with pc := 0x10FE, stack := [0x1000], cfg := { stackLimit := some 1 } }
        .addressOutOfBounds) :=
  ⟨⟨by decide, by decide, by decide, by simp, fun limit h => by cases h; decide, fun h => nomatch h⟩, rfl⟩

/-- An instruction that changes each writable part of the state the summary names: V, I, PC, stack, timers, Memory, ERR. -/
theorem witness_ExecWritesOnlyAccessSummary :
    exec (.ldI 0x123) State.reset = .next { State.reset with i := 0x0123 } ∧
    exec (.call 0x300) State.reset = .next { State.reset with pc := 0x0300, stack := [0x0200] } ∧
    exec (.ldDTVx 1) (regs [(1, 5)]) = .next { regs [(1, 5)] with dt := 5 } ∧
    exec (.ldSTVx 1) (regs [(1, 5)]) = .next { regs [(1, 5)] with st := 5 } ∧
    exec (.dump 0) { regs [(0, 5)] with i := 0x300 } = .next { regs [(0, 5)] with i := 0x300, mem := [(0x300, 5)] } ∧
    exec .cls { State.reset with fb := frameRow 0 1 } = .next State.reset ∧
    exec .ret State.reset = .next (latched State.reset .stackUnderflow) ∧
    exec (.rnd 1 0xFF) { State.reset with rndSupply := [0xB7] } = .next { regs [(1, 0xB7)] with rndCount := 1 } :=
  ⟨rfl, rfl, rfl, rfl, rfl,
    rfl, rfl, rfl⟩

/-- An addition that changes VF as its flag, and a load that changes it as Vx. -/
theorem witness_OnlyFlagWritersChangeVf :
    exec (.addReg 1 2) (regs [(1, 0xFF), (2, 2)]) = .next (regs [(1, 1), (2, 2), (15, 1)]) ∧
    (regs [(1, 1), (2, 2), (15, 1)]).reg 15 ≠ (regs [(1, 0xFF), (2, 2)]).reg 15 ∧
    exec (.ldImm 15 7) State.reset = .next (regs [(15, 7)]) ∧ (regs [(15, 7)]).reg 15 ≠ State.reset.reg 15 :=
  ⟨rfl, by decide, rfl, by decide⟩

theorem witness_SoundTimerAndReportsAreUnread :
    step (placed 0x6A42 State.reset) = .next { placed 0x6A42 (regs [(0xA, 0x42)]) with pc := 0x0202 } :=
  rfl

/-- The self-jump at 0x0208 of program P1. -/
theorem witness_SelfJumpChangesNothing :
    (placed 0x1208 { State.reset with pc := 0x0208 }).stepNext (placed 0x1208 { State.reset with pc := 0x0208 }) ∧
    (placed 0x1208 { State.reset with pc := 0x0208 }).running ∧
    (placed 0x1208 { State.reset with pc := 0x0208 }).wordAtPc 0x1208 ∧
    (placed 0x1208 { State.reset with pc := 0x0208 }).pc.toNat < 4095 ∧
    (0x1208 : Word).toNat = 0x1000 + (placed 0x1208 { State.reset with pc := 0x0208 }).pc.toNat :=
  ⟨.inl ⟨rfl, rfl⟩, rfl, by unfold State.wordAtPc; decide, by decide, by decide⟩

end Sys2Proof.Tests
end

section
/-! SUPPORT. Totality of the step (spec/00_scope.md R9): each layer, from the execute phase up to the event, answers a next
state. -/

namespace Sys2Proof.Machine

/-- The seven meanings that branch answer a next state on each branch, a fault being one (R232); the others do not branch. -/
theorem exec_answers_next (i : Instr) (s : State) : ∃ t, exec i s = .next t := by
  cases i with
  | ret => obtain ⟨_, h⟩ | ⟨_, _, _, h⟩ := execRet_cases s <;> exact ⟨_, h⟩
  | call nnn => obtain ⟨_, h⟩ | ⟨_, h⟩ := execCall_cases s nnn <;> exact ⟨_, h⟩
  | drw x y n => obtain ⟨_, h⟩ | ⟨_, _, h⟩ := execDrw_cases s x y n <;> exact ⟨_, h⟩
  | ldVxK x => obtain ⟨_, h⟩ | ⟨_, _, _, h⟩ := execLdVxK_cases s x <;> exact ⟨_, h⟩
  | ldB x => obtain ⟨_, h⟩ | ⟨_, h⟩ := execLdB_cases s x <;> exact ⟨_, h⟩
  | dump x => obtain ⟨_, h⟩ | ⟨_, h⟩ := execDump_cases s x <;> exact ⟨_, h⟩
  | load x => obtain ⟨_, h⟩ | ⟨_, h⟩ := execLoad_cases s x <;> exact ⟨_, h⟩
  | _ => exact ⟨_, rfl⟩

theorem execWord_answers_next (w : Word) (s : State) : ∃ t, execWord w s = .next t := by
  obtain ⟨i, _, h⟩ | ⟨_, _, h⟩ := execWord_cases w s
  · exact h ▸ exec_answers_next i s
  · exact ⟨_, h⟩

theorem instructionCycle_answers_next (s : State) : ∃ t, instructionCycle s = .next t := by
  obtain ⟨_, h⟩ | ⟨_, _, h⟩ | ⟨_, _, h⟩ := instructionCycle_cases s
  · exact ⟨_, h⟩
  · exact ⟨_, h⟩
  · exact h ▸ execWord_answers_next _ _

/-- Of the events, only Step runs an instruction; the others answer their state outright. -/
theorem applyEvent_answers_next (e : Event) (s : State) : ∃ t, applyEvent e s = .next t := by
  cases e with
  | step => exact instructionCycle_answers_next s
  | _ => exact ⟨_, rfl⟩

/-- Settles O7: a step is one event, and every event answers a next state. -/
theorem everyStepAnswersANextState : Obligations.EveryStepAnswersANextState := by
  intro s
  obtain ⟨_, h⟩ | ⟨e, rest, _, h⟩ := step_cases s
  · exact h ▸ instructionCycle_answers_next s
  · exact h ▸ applyEvent_answers_next e _

end Sys2Proof.Machine
end

section
/-! SUPPORT. What an execute phase can leave (spec/10_state.md R36): one inversion lemma over the 34 instructions, grouped by
what they write, from which the access summary, the flag writers and the invariant all follow. -/

namespace Sys2Proof.Machine

/-! ## The rows of the access summary that several instructions share -/

/-- The instruction writes Vx and no flag; its operands beyond `x` do not matter here. -/
def SetsReg (i : Instr) (x : Reg) : Prop :=
  (∃ kk, i = .ldImm x kk ∨ i = .addImm x kk) ∨
  (∃ y, i = .ldReg x y ∨ i = .orReg x y ∨ i = .andReg x y ∨ i = .xorReg x y) ∨ i = .ldVxDT x ∨ i = .ldVxK x

/-- The instruction writes Vx and then the flag to VF (R35). -/
def SetsRegFlag (i : Instr) (x : Reg) : Prop :=
  ∃ y, i = .addReg x y ∨ i = .subReg x y ∨ i = .subnReg x y ∨ i = .shr x y ∨ i = .shl x y

/-- The instruction writes PC and nothing else. -/
def SetsPc (i : Instr) : Prop :=
  (∃ nnn, i = .jp nnn ∨ i = .jpV0 nnn) ∨ (∃ x kk, i = .seImm x kk ∨ i = .sneImm x kk) ∨
  (∃ x y, i = .seReg x y ∨ i = .sneReg x y) ∨ ∃ x, i = .skp x ∨ i = .sknp x ∨ i = .ldVxK x

/-- The instruction writes I and nothing else. -/
def SetsIndex (i : Instr) : Prop := (∃ nnn, i = .ldI nnn) ∨ ∃ x, i = .ldF x

/-- The instruction writes Memory. -/
def Stores (i : Instr) : Prop := (∃ x, i = .ldB x) ∨ ∃ x, i = .dump x

/-- The instruction can latch a fault (spec/60_exceptions.md R233 to R235). -/
def CanFault (i : Instr) : Prop :=
  i = .ret ∨ (∃ nnn, i = .call nnn) ∨ (∃ x, i = .ldB x) ∨ (∃ x, i = .dump x) ∨ (∃ x, i = .load x) ∨ ∃ x y n, i = .drw x y n

/-- Where PC can go without the stack, seen from the a + 2 at which an execute phase runs: to an absolute target, which is at
most 0x0FFF + 0xFF, or to a + 2, a + 4 or a (R34). -/
def PcTarget (s : State) (w : Word) : Prop := w.toNat ≤ 0x10FE ∨ w = s.pc ∨ w = s.pc + 2 ∨ w = s.pc - 2

/-- What the execute phase of an instruction can leave of `s`, by what it writes. -/
inductive ExecEffect (s : State) : Instr → State → Prop
  | fault {i : Instr} (f : Fault) (hf : f = .stackOverflow → s.cfg.stackLimit ≠ none) (hi : CanFault i) :
      ExecEffect s i (latched s f)
  | setReg {i : Instr} {x : Reg} (b : Byte) (hi : SetsReg i x) : ExecEffect s i (s.setReg x b)
  | setRegFlag {i : Instr} {x : Reg} (r : Byte) (flag : Bool) (hi : SetsRegFlag i x) :
      ExecEffect s i (s.setRegFlag x r (flagByte flag))
  | random (x : Reg) (kk b : Byte) : ExecEffect s (.rnd x kk) (s.setReg x b).consumeRandom
  | load (x : Reg) (v : Vector Byte 16) (hv : ∀ k : Reg, x.val < k.val → v[k] = s.reg k) :
      ExecEffect s (.load x) { s with v := v }
  | setPc {i : Instr} (w : Word) (hw : PcTarget s w) (hi : SetsPc i) : ExecEffect s i (s.setPc w)
  | call (nnn : Addr12) (hlimit : s.cfg.stackLimit ≠ some s.stack.length) :
      ExecEffect s (.call nnn) { s with stack := s.stack ++ [s.pc], pc := zext16 nnn }
  | ret (rest : List Word) (target : Word) (hstack : s.stack = rest ++ [target]) :
      ExecEffect s .ret { s with pc := target, stack := rest }
  | setIndex {i : Instr} (w : Word) (hi : SetsIndex i) : ExecEffect s i (s.setI w)
  | addIndex (x : Reg) (w : Word) : ExecEffect s (.addI x) (s.setI w)
  | addIndexFlag (x : Reg) (w : Word) : ExecEffect s (.addI x) ((s.setI w).setReg vf 1)
  | store {i : Instr} (vs : List Byte) (hfit : s.indexAddr 0 + vs.length ≤ 4096) (hi : Stores i) :
      ExecEffect s i (s.storeBytes (s.indexAddr 0) vs)
  | delay (x : Reg) (b : Byte) : ExecEffect s (.ldDTVx x) { s with dt := b }
  | sound (x : Reg) (b : Byte) : ExecEffect s (.ldSTVx x) { s with st := b }
  | clear : ExecEffect s .cls { s with fb := Frame.clear }
  | draw (x y : Reg) (n : Nat) (fb : Frame) (flag : Bool) :
      ExecEffect s (.drw x y n) (({ s with fb := fb } : State).setReg vf (flagByte flag))

/-! ## Where PC goes -/

theorem zext16_toNat (nnn : Addr12) : (zext16 nnn).toNat = nnn.toNat :=
  BitVec.toNat_setWidth_of_le (by decide)

theorem zext16_le (nnn : Addr12) : (zext16 nnn).toNat ≤ 0x0FFF := by
  rw [zext16_toNat]
  exact Nat.le_of_lt_succ nnn.isLt

theorem pcTarget_zext16 (s : State) (nnn : Addr12) : PcTarget s (zext16 nnn) :=
  .inl ((zext16_le nnn).trans (by decide))

/-- The offset jump reaches at most 0x0FFF + 0xFF: its sum never wraps. -/
theorem pcTarget_offsetTarget (s : State) (nnn : Addr12) : PcTarget s (offsetTarget s nnn) := by
  have hn := zext16_le nnn
  have hv := (s.reg 0).isLt
  refine .inl ?_
  simp only [offsetTarget, BitVec.toNat_add, BitVec.toNat_setWidth]
  omega

/-- A skip leaves PC at a + 2 or a + 4. -/
theorem ExecEffect.skip {s : State} {i : Instr} (c : Bool) (hi : SetsPc i) : ExecEffect s i (s.skipIf c) := by
  cases c with
  | false => exact .setPc s.pc (.inr (.inl rfl)) hi
  | true => exact .setPc (s.pc + 2) (.inr (.inr (.inl rfl))) hi

/-! ## The inversion lemma -/

theorem exec_effect (i : Instr) (s : State) : ∃ t, exec i s = .next t ∧ ExecEffect s i t := by
  cases i with
  | cls => exact ⟨_, rfl, .clear⟩
  | ret =>
    obtain ⟨_, h⟩ | ⟨rest, target, hstack, h⟩ := execRet_cases s
    · exact ⟨_, h, .fault _ nofun (.inl rfl)⟩
    · exact ⟨_, h, .ret rest target hstack⟩
  | call nnn =>
    obtain ⟨hlimit, h⟩ | ⟨hlimit, h⟩ := execCall_cases s nnn
    · exact ⟨_, h, .fault _ (by simp [hlimit]) (by simp [CanFault])⟩
    · exact ⟨_, h, .call nnn hlimit⟩
  | jp nnn => exact ⟨_, rfl, .setPc _ (pcTarget_zext16 s nnn) (by simp [SetsPc])⟩
  | jpV0 nnn => exact ⟨_, rfl, .setPc _ (pcTarget_offsetTarget s nnn) (by simp [SetsPc])⟩
  | seImm | sneImm | seReg | sneReg | skp | sknp => exact ⟨_, rfl, .skip _ (by simp [SetsPc])⟩
  | ldImm x | addImm x | ldReg x | orReg x | andReg x | xorReg x | ldVxDT x =>
    exact ⟨_, rfl, .setReg (x := x) _ (by simp [SetsReg])⟩
  | addReg x | subReg x | subnReg x | shr x | shl x =>
    exact ⟨_, rfl, .setRegFlag (x := x) _ _ (by simp [SetsRegFlag])⟩
  | rnd x kk => exact ⟨_, rfl, .random x kk _⟩
  | ldVxK x =>
    obtain ⟨_, h⟩ | ⟨_, _, _, h⟩ := execLdVxK_cases s x
    · exact ⟨_, h, .setPc _ (.inr (.inr (.inr rfl))) (by simp [SetsPc])⟩
    · exact ⟨_, h, .setReg (x := x) _ (by simp [SetsReg])⟩
  | ldDTVx x => exact ⟨_, rfl, .delay x _⟩
  | ldSTVx x => exact ⟨_, rfl, .sound x _⟩
  | ldI | ldF => exact ⟨_, rfl, .setIndex _ (by simp [SetsIndex])⟩
  | addI x =>
    obtain ⟨_, h⟩ | ⟨_, h⟩ := execAddI_cases s x
    · exact ⟨_, h, .addIndexFlag x _⟩
    · exact ⟨_, h, .addIndex x _⟩
  | ldB x =>
    obtain ⟨hb, h⟩ | ⟨_, h⟩ := execLdB_cases s x
    · exact ⟨_, h, .store _ (by simp [State.indexAddr]; omega) (by simp [Stores])⟩
    · exact ⟨_, h, .fault _ nofun (by simp [CanFault])⟩
  | dump x =>
    obtain ⟨hb, h⟩ | ⟨_, h⟩ := execDump_cases s x
    · exact ⟨_, h, .store _ (by simp [State.indexAddr]; omega) (by simp [Stores])⟩
    · exact ⟨_, h, .fault _ nofun (by simp [CanFault])⟩
  | load x =>
    obtain ⟨_, h⟩ | ⟨_, h⟩ := execLoad_cases s x
    · rw [loadRegs_eq] at h
      exact ⟨_, h, .load x _ fun k hk => (loadRegs_reg s _ x k).trans (if_neg (by omega))⟩
    · exact ⟨_, h, .fault _ nofun (by simp [CanFault])⟩
  | drw x y n =>
    obtain ⟨_, h⟩ | ⟨_, _, h⟩ := execDrw_cases s x y n
    · exact ⟨_, h, .draw x y n _ _⟩
    · exact ⟨_, h, .fault _ nofun (by simp [CanFault])⟩

/-- The inversion lemma: an execute phase that answers `t` has one of the effects. -/
theorem effect_of_exec {i : Instr} {s t : State} (h : exec i s = .next t) : ExecEffect s i t := by
  obtain ⟨t', h', he⟩ := exec_effect i s
  cases h.symm.trans h'
  exact he

end Sys2Proof.Machine
end

section
/-! SUPPORT. The invariant (spec/10_state.md R34) through one step: execute phase, cycle, event. -/

namespace Sys2Proof.Machine

variable {s t : State}

/-! ## Changes the invariant does not see, and the latch -/

/-- The invariant speaks of these five fields only. -/
theorem State.Inv.congr (hs : s.Inv) (hcfg : t.cfg = s.cfg) (hmem : t.mem = s.mem) (hpc : t.pc = s.pc)
    (hstack : t.stack = s.stack) (herr : t.err = s.err) : t.Inv := by
  obtain ⟨cfg_wf, mem_wf, pc_le, stack_le, depth_le, overflow⟩ := hs
  constructor <;> simpa only [hcfg, hmem, hpc, hstack, herr]

theorem State.Inv.latched (hs : s.Inv) {f : Fault} (hf : f = .stackOverflow → s.cfg.stackLimit ≠ none) :
    (latched s f).Inv :=
  ⟨hs.cfg_wf, hs.mem_wf, hs.pc_le, hs.stack_le, hs.depth_le, fun h => hf (Option.some.inj h)⟩

theorem State.Inv.setPc (hs : s.Inv) {w : Word} (hw : w.toNat ≤ 0x10FE) : (s.setPc w).Inv :=
  ⟨hs.cfg_wf, hs.mem_wf, hw, hs.stack_le, hs.depth_le, hs.overflow_limited⟩

theorem State.Inv.storeBytes (hs : s.Inv) {a : Nat} {vs : List Byte} (hfit : a + vs.length ≤ 4096) :
    (s.storeBytes a vs).Inv :=
  ⟨hs.cfg_wf, Memory.writeBytes_wf hfit hs.mem_wf, hs.pc_le, hs.stack_le, hs.depth_le, hs.overflow_limited⟩

/-! ## The execute phase -/

/-- What a fetch leaves and every execute phase starts from: PC is a + 2 for some a from 0 to 4094 (R120). -/
structure Fetched (s : State) : Prop where
  inv : s.Inv
  two_le_pc : 2 ≤ s.pc.toNat
  pc_le : s.pc.toNat ≤ 0x1000

theorem State.Inv.fetched (hs : s.Inv) (hpc : s.pc.toNat ≤ 4094) : Fetched (s.setPc (s.pc + 2)) := by
  have h : (s.pc + 2).toNat = s.pc.toNat + 2 := by simp; omega
  exact ⟨hs.setPc (by omega), by rw [State.setPc_pc]; omega, by rw [State.setPc_pc]; omega⟩

/-- From a fetched a + 2 every target keeps PC in R34's range: the highest are a + 4 and an offset jump. -/
theorem Fetched.pcTarget_le (hs : Fetched s) {w : Word} (hw : PcTarget s w) : w.toNat ≤ 0x10FE := by
  have hlow := hs.two_le_pc
  have hhigh := hs.pc_le
  obtain h | rfl | rfl | rfl := hw
  · exact h
  · omega
  · simp; omega
  · simp [BitVec.toNat_sub]; omega

/-- Call pushes the a + 2 of the fetch, and only below the limit. -/
theorem Fetched.call (hs : Fetched s) (nnn : Addr12) (hlimit : s.cfg.stackLimit ≠ some s.stack.length) :
    State.Inv { s with stack := s.stack ++ [s.pc], pc := zext16 nnn } where
  cfg_wf := hs.inv.cfg_wf
  mem_wf := hs.inv.mem_wf
  pc_le := (zext16_le nnn).trans (by decide)
  stack_le r hr := by
    obtain h | h := List.mem_append.1 hr
    · exact hs.inv.stack_le r h
    · rw [List.mem_singleton.1 h]
      exact hs.pc_le
  depth_le limit h := by
    have hle := hs.inv.depth_le limit h
    have hne : s.stack.length ≠ limit := fun heq => hlimit (h.trans (congrArg some heq.symm))
    simp only [List.length_append, List.length_singleton]
    omega
  overflow_limited := hs.inv.overflow_limited

/-- Return takes PC from the stack, whose entries are in PC's range. -/
theorem State.Inv.ret (hs : s.Inv) {rest : List Word} {target : Word} (hstack : s.stack = rest ++ [target]) :
    State.Inv { s with pc := target, stack := rest } where
  cfg_wf := hs.cfg_wf
  mem_wf := hs.mem_wf
  pc_le := (hs.stack_le target (by simp [hstack])).trans (by decide)
  stack_le r hr := hs.stack_le r (by simp [hstack, hr])
  depth_le limit h := by
    have hle := hs.depth_le limit h
    simp only [hstack, List.length_append, List.length_singleton] at hle
    exact (Nat.le_succ _).trans hle
  overflow_limited := hs.overflow_limited

/-- An effect that writes none of the invariant's fields is `congr`; the others are the lemmas above. -/
theorem ExecEffect.inv {i : Instr} (he : ExecEffect s i t) (hs : Fetched s) : t.Inv := by
  cases he with
  | fault f hf => exact hs.inv.latched hf
  | setPc w hw => exact hs.inv.setPc (hs.pcTarget_le hw)
  | call nnn hlimit => exact hs.call nnn hlimit
  | ret rest target hstack => exact hs.inv.ret hstack
  | store vs hfit => exact hs.inv.storeBytes hfit
  | setReg | setRegFlag | random | load | setIndex | addIndex | addIndexFlag | delay | sound | clear | draw =>
    exact hs.inv.congr rfl rfl rfl rfl rfl

/-! ## The cycle and the events -/

theorem execWord_inv {w : Word} (hs : Fetched s) (h : execWord w s = .next t) : t.Inv := by
  obtain ⟨i, _, hw⟩ | ⟨_, _, hw⟩ := execWord_cases w s
  · exact (effect_of_exec (hw.symm.trans h)).inv hs
  · cases hw.symm.trans h
    exact hs.inv.congr rfl rfl rfl rfl rfl

theorem instructionCycle_inv (hs : s.Inv) (h : instructionCycle s = .next t) : t.Inv := by
  obtain ⟨_, hc⟩ | ⟨_, _, hc⟩ | ⟨_, hpc, hc⟩ := instructionCycle_cases s
  · cases hc.symm.trans h
    exact hs
  · cases hc.symm.trans h
    exact hs.latched nofun
  · exact execWord_inv (hs.fetched hpc) (hc.symm.trans h)

/-- Settles O40: at reset nothing is listed in Memory, stacked or latched, and the parameters have their defaults. -/
theorem resetMeetsInvariant : Obligations.ResetMeetsInvariant where
  cfg_wf := by decide
  mem_wf := Memory.wf_nil
  pc_le := by decide
  stack_le := nofun
  depth_le := nofun
  overflow_limited := nofun

/-- The ROM either fits between 0x200 and the end of Memory or is not loaded (spec/70_reset_and_hazards.md R260). -/
theorem State.Inv.afterReset (hs : s.Inv) (rom : List Byte) : (s.afterReset rom).Inv := by
  have hclean : State.Inv
      { State.reset with
        cfg := s.cfg, schedule := s.schedule, rndSupply := s.rndSupply, rndCount := s.rndCount, reports := s.reports } :=
    ⟨hs.cfg_wf, Memory.wf_nil, Nat.le_of_ble_eq_true rfl, nofun, fun _ _ => Nat.zero_le _, nofun⟩
  unfold State.afterReset
  split
  · next hfit => exact hclean.storeBytes (by simp only [maxRomLength, progBase] at hfit ⊢; omega)
  · exact hclean.latched nofun

theorem applyEvent_inv {e : Event} (hs : s.Inv) (h : applyEvent e s = .next t) : t.Inv := by
  cases e with
  | reset rom => cases h; exact hs.afterReset rom
  | step => exact instructionCycle_inv hs h
  | tick | press | release => cases h; exact hs.congr rfl rfl rfl rfl rfl

/-- Settles O41: a step is one event, taking it off the schedule is not seen by the invariant, and every event keeps it. -/
theorem stepKeepsInvariant : Obligations.StepKeepsInvariant := by
  intro s t hs h
  obtain ⟨_, hstep⟩ | ⟨e, rest, _, hstep⟩ := step_cases s
  · exact instructionCycle_inv hs (hstep.symm.trans h)
  · have htaken : State.Inv { s with schedule := rest } := hs.congr rfl rfl rfl rfl rfl
    exact applyEvent_inv htaken (hstep.symm.trans h)

end Sys2Proof.Machine
end

section
/-! SUPPORT. Which effects write a field of the state (spec/10_state.md R36), one lemma per field of the access summary, and
which write VF (R35). -/

namespace Sys2Proof.Machine

variable {s t : State} {i : Instr}

/-! ## One field each -/

theorem ExecEffect.keeps (he : ExecEffect s i t) :
    t.keys = s.keys ∧ t.cfg = s.cfg ∧ t.schedule = s.schedule ∧ t.reports = s.reports := by
  cases he <;> exact ⟨rfl, rfl, rfl, rfl⟩

theorem ExecEffect.writes_i (he : ExecEffect s i t) (hne : t.i ≠ s.i) :
    (∃ nnn, i = .ldI nnn) ∨ (∃ x, i = .addI x) ∨ ∃ x, i = .ldF x := by
  cases he with
  | setIndex w hi => exact hi.imp_right .inr
  | addIndex x | addIndexFlag x => exact .inr (.inl ⟨x, rfl⟩)
  | _ => exact absurd rfl hne

theorem ExecEffect.writes_stack (he : ExecEffect s i t) (hne : t.stack ≠ s.stack) :
    i = .ret ∨ ∃ nnn, i = .call nnn := by
  cases he with
  | ret => exact .inl rfl
  | call nnn => exact .inr ⟨nnn, rfl⟩
  | _ => exact absurd rfl hne

theorem ExecEffect.writes_dt (he : ExecEffect s i t) (hne : t.dt ≠ s.dt) : ∃ x, i = .ldDTVx x := by
  cases he with
  | delay x => exact ⟨x, rfl⟩
  | _ => exact absurd rfl hne

theorem ExecEffect.writes_st (he : ExecEffect s i t) (hne : t.st ≠ s.st) : ∃ x, i = .ldSTVx x := by
  cases he with
  | sound x => exact ⟨x, rfl⟩
  | _ => exact absurd rfl hne

theorem ExecEffect.writes_mem (he : ExecEffect s i t) (hne : t.mem ≠ s.mem) : Stores i := by
  cases he with
  | store vs hfit hi => exact hi
  | _ => exact absurd rfl hne

theorem ExecEffect.writes_fb (he : ExecEffect s i t) (hne : t.fb ≠ s.fb) : i = .cls ∨ ∃ x y n, i = .drw x y n := by
  cases he with
  | clear => exact .inl rfl
  | draw x y n => exact .inr ⟨x, y, n, rfl⟩
  | _ => exact absurd rfl hne

theorem ExecEffect.writes_random (he : ExecEffect s i t) (hne : t.rndSupply ≠ s.rndSupply ∨ t.rndCount ≠ s.rndCount) :
    ∃ x kk, i = .rnd x kk := by
  cases he with
  | random x kk => exact ⟨x, kk, rfl⟩
  | _ => exact hne.elim (absurd rfl) (absurd rfl)

theorem ExecEffect.writes_err (he : ExecEffect s i t) (hne : t.err ≠ s.err) : CanFault i := by
  cases he with
  | fault f hf hi => exact hi
  | _ => exact absurd rfl hne

theorem ExecEffect.writes_pc (he : ExecEffect s i t) (hne : t.pc ≠ s.pc) :
    i = .ret ∨ (∃ nnn, i = .jp nnn ∨ i = .call nnn ∨ i = .jpV0 nnn) ∨ (∃ x kk, i = .seImm x kk ∨ i = .sneImm x kk) ∨
      (∃ x y, i = .seReg x y ∨ i = .sneReg x y) ∨ ∃ x, i = .skp x ∨ i = .sknp x ∨ i = .ldVxK x := by
  cases he with
  | setPc w hw hi =>
    obtain ⟨nnn, hj⟩ | hskip := hi
    · exact .inr (.inl ⟨nnn, hj.imp_right .inr⟩)
    · exact .inr (.inr hskip)
  | call nnn => exact .inr (.inl ⟨nnn, .inr (.inl rfl)⟩)
  | ret => exact .inl rfl
  | _ => exact absurd rfl hne

/-! ## Registers -/

theorem State.eq_of_reg_setReg_ne {x k : Reg} {b : Byte} (hne : (s.setReg x b).reg k ≠ s.reg k) : k = x := by
  by_contra h
  simp [h] at hne

theorem State.eq_of_reg_setRegFlag_ne {x k : Reg} {r f : Byte} (hk : k ≠ 15)
    (hne : (s.setRegFlag x r f).reg k ≠ s.reg k) : k = x :=
  State.eq_of_reg_setReg_ne fun h => hne (by simpa [hk, vf] using h)

/-- The rows of the access summary that write Vk, for k other than 15. -/
def WritesReg (i : Instr) (k : Reg) : Prop :=
  (∃ kk, i = .ldImm k kk ∨ i = .addImm k kk ∨ i = .rnd k kk) ∨
  (∃ y, i = .ldReg k y ∨ i = .orReg k y ∨ i = .andReg k y ∨ i = .xorReg k y ∨ i = .addReg k y ∨ i = .subReg k y ∨
    i = .subnReg k y ∨ i = .shr k y ∨ i = .shl k y) ∨
  i = .ldVxDT k ∨ i = .ldVxK k ∨ ∃ x, i = .load x ∧ k.val ≤ x.val

theorem SetsReg.writesReg {x : Reg} (hi : SetsReg i x) : WritesReg i x := by
  obtain ⟨kk, h⟩ | ⟨y, h⟩ | h | h := hi
  · exact .inl ⟨kk, h.imp_right .inl⟩
  · exact .inr (.inl ⟨y, by tauto⟩)
  · exact .inr (.inr (.inl h))
  · exact .inr (.inr (.inr (.inl h)))

theorem SetsRegFlag.writesReg {x : Reg} (hi : SetsRegFlag i x) : WritesReg i x := by
  obtain ⟨y, h⟩ := hi
  exact .inr (.inl ⟨y, by tauto⟩)

theorem ExecEffect.writes_reg (he : ExecEffect s i t) {k : Reg} (hk : k ≠ 15) (hne : t.reg k ≠ s.reg k) :
    WritesReg i k := by
  cases he with
  | setReg b hi => exact State.eq_of_reg_setReg_ne hne ▸ hi.writesReg
  | setRegFlag r flag hi => exact State.eq_of_reg_setRegFlag_ne hk hne ▸ hi.writesReg
  | random x kk b =>
    obtain rfl := State.eq_of_reg_setReg_ne hne
    exact .inl ⟨kk, .inr (.inr rfl)⟩
  | load x v hv => exact .inr (.inr (.inr (.inr ⟨x, rfl, not_lt.1 fun h => hne (hv k h)⟩)))
  | addIndexFlag | draw => exact absurd (State.eq_of_reg_setReg_ne hne) hk
  | _ => exact absurd rfl hne

/-- Settles O42: field by field, the effects that write it come from the instructions the summary names. -/
theorem execWritesOnlyAccessSummary : Obligations.ExecWritesOnlyAccessSummary := by
  intro i s t h
  have he := effect_of_exec h
  obtain ⟨hkeys, hcfg, hschedule, hreports⟩ := he.keeps
  exact ⟨hkeys, hcfg, hschedule, hreports, he.writes_i, he.writes_stack, he.writes_dt, he.writes_st, he.writes_mem,
    he.writes_fb, he.writes_random, he.writes_err, he.writes_pc, fun _ => he.writes_reg⟩

/-! ## The flag -/

theorem flagByte_eq_zero_or_one (flag : Bool) : flagByte flag = 0 ∨ flagByte flag = 1 := by cases flag <;> decide

/-- Settles O43: an effect that changes VF writes the flag last, or writes Vx with x = 15. -/
theorem onlyFlagWritersChangeVf : Obligations.OnlyFlagWritersChangeVf := by
  intro i s t h hne
  cases effect_of_exec h with
  | setReg b hi =>
    obtain rfl := State.eq_of_reg_setReg_ne hne
    obtain ⟨kk, hkk⟩ | ⟨y, hy⟩ | hdt | hkey := hi
    · exact .inr (.inl ⟨kk, hkk.imp_right .inl⟩)
    · exact .inr (.inr (.inl ⟨y, hy⟩))
    · exact .inr (.inr (.inr (.inl hdt)))
    · exact .inr (.inr (.inr (.inr (.inl hkey))))
  | @setRegFlag _ x r flag hi => exact .inl ⟨by simpa [vf] using flagByte_eq_zero_or_one flag, .inl ⟨x, hi⟩⟩
  | addIndexFlag x w => exact .inl ⟨.inr (by simp [vf]), .inr (.inl ⟨x, rfl⟩)⟩
  | draw x y n fb flag =>
    exact .inl ⟨by simpa [vf] using flagByte_eq_zero_or_one flag, .inr (.inr ⟨x, y, n, rfl⟩)⟩
  | random x kk b =>
    obtain rfl := State.eq_of_reg_setReg_ne hne
    exact .inr (.inl ⟨kk, .inr (.inr rfl)⟩)
  | load x v hv =>
    have hx : x = 15 := Fin.ext (Nat.le_antisymm (Nat.le_of_lt_succ x.isLt) (not_lt.1 fun hlt => hne (hv 15 hlt)))
    exact .inr (.inr (.inr (.inr (.inr (congrArg _ hx)))))
  | _ => exact absurd rfl hne

end Sys2Proof.Machine
end

section
/-! SUPPORT. The sound timer and the reports are read by nothing (spec/10_state.md R26, spec/60_exceptions.md R231): two runs
that differ only there, compared layer by layer from the execute phase up. -/

namespace Sys2Proof.Machine

/-- `s` with another sound timer and other reports. -/
def State.withUnread (s : State) (st : Byte) (reports : List Word) : State := { s with st := st, reports := reports }

/-- When `r` answers a next state, so does `r'`, and the two states differ at most in the sound timer and the reports. -/
def AnswersAlike (r r' : Result) : Prop :=
  ∀ t, r = .next t → ∃ st reports, r' = .next (t.withUnread st reports)

variable (s : State) (st : Byte) (reports : List Word)

/-! ## Results alike, by their shape -/

theorem AnswersAlike.next : AnswersAlike (.next s) (.next (s.withUnread st reports)) := by
  rintro _ ⟨⟩
  exact ⟨st, reports, rfl⟩

theorem AnswersAlike.nextIte {p : Prop} [Decidable p] (a b : State) :
    AnswersAlike (.next (if p then a else b))
      (.next (if p then a.withUnread st reports else b.withUnread st reports)) := by
  split <;> exact .next _ st reports

theorem AnswersAlike.ite {p : Prop} [Decidable p] {a b a' b' : Result} (ha : AnswersAlike a a')
    (hb : AnswersAlike b b') : AnswersAlike (if p then a else b) (if p then a' else b') := by
  split
  · exact ha
  · exact hb

/-! ## The operations whose branch is a match or a fold -/

theorem State.pop_withUnread :
    (s.withUnread st reports).pop = s.pop.map (Prod.map id (·.withUnread st reports)) := by
  simp only [State.pop, State.withUnread]
  cases s.stack.getLast? <;> rfl

theorem State.fetch_withUnread :
    (s.withUnread st reports).fetch = s.fetch.map (Prod.map id (·.withUnread st reports)) := by
  unfold State.fetch
  rw [apply_ite (Option.map _)]
  rfl

theorem State.keyLowest_withUnread : (s.withUnread st reports).keyLowest = s.keyLowest := rfl

theorem loadRegs_withUnread (base : Nat) (x : Reg) :
    loadRegs (s.withUnread st reports) base x = (loadRegs s base x).withUnread st reports :=
  List.foldl_hom (State.withUnread · st reports) (fun _ _ => rfl)

theorem execRet_unread : AnswersAlike (execRet s) (execRet (s.withUnread st reports)) := by
  unfold execRet
  rw [State.pop_withUnread]
  cases s.pop <;> exact .next _ st reports

theorem execLdVxK_unread (x : Reg) : AnswersAlike (execLdVxK x s) (execLdVxK x (s.withUnread st reports)) := by
  unfold execLdVxK
  rw [State.keyLowest_withUnread]
  cases s.keyLowest <;> exact .next _ st reports

theorem execLoad_unread (x : Reg) : AnswersAlike (execLoad x s) (execLoad x (s.withUnread st reports)) := by
  unfold execLoad
  rw [loadRegs_withUnread]
  exact .ite (.next _ st reports) (.next _ st reports)

/-! ## Execute phase, cycle, event -/

/-- Every guard and every operand is the same in the two states; of the 34 meanings only one writes the sound timer. -/
theorem exec_unread (i : Instr) : AnswersAlike (exec i s) (exec i (s.withUnread st reports)) := by
  cases i with
  | ret => exact execRet_unread s st reports
  | ldVxK x => exact execLdVxK_unread s st reports x
  | load x => exact execLoad_unread s st reports x
  | ldSTVx x => exact .next _ (s.reg x) reports
  | seImm | sneImm | seReg | sneReg | skp | sknp | addI => exact .nextIte st reports _ _
  | call | drw | ldB | dump => exact .ite (.next _ st reports) (.next _ st reports)
  | _ => exact .next _ st reports

/-- A report goes to the end of whichever stream there is. -/
theorem execWord_unread (w : Word) : AnswersAlike (execWord w s) (execWord w (s.withUnread st reports)) := by
  unfold execWord
  cases decodeWord w with
  | ok i => exact exec_unread s st reports i
  | error => exact .next _ st (reports ++ [w])

theorem instructionCycle_unread :
    AnswersAlike (instructionCycle s) (instructionCycle (s.withUnread st reports)) := by
  refine .ite (.next _ st reports) ?_
  rw [State.fetch_withUnread]
  cases s.fetch with
  | none => exact .next _ st reports
  | some p => exact execWord_unread p.2 st reports p.1

/-- A tick decrements each sound timer, a Reset event zeroes both. -/
theorem applyEvent_unread (e : Event) : AnswersAlike (applyEvent e s) (applyEvent e (s.withUnread st reports)) := by
  cases e with
  | step => exact instructionCycle_unread s st reports
  | reset rom => exact .nextIte 0 reports _ _
  | tick => exact .next _ (s.withUnread st reports).tick.st reports
  | press | release => exact .next _ st reports

theorem step_of_schedule_nil {s : State} (h : s.schedule = []) : step s = instructionCycle s :=
  step_of_stepNext (.inl ⟨h, rfl⟩)

theorem step_of_schedule_cons {s : State} {e : Event} {rest : List Event} (h : s.schedule = e :: rest) :
    step s = applyEvent e { s with schedule := rest } := by
  simp [step, nextEvent, h]

theorem step_unread : AnswersAlike (step s) (step (s.withUnread st reports)) := by
  cases h : s.schedule with
  | nil =>
    rw [step_of_schedule_nil h, step_of_schedule_nil (s := s.withUnread st reports) h]
    exact instructionCycle_unread s st reports
  | cons e rest =>
    rw [step_of_schedule_cons h, step_of_schedule_cons (s := s.withUnread st reports) h]
    exact applyEvent_unread { s with schedule := rest } st reports e

/-- Settles O44: the schedule does not depend on what differs, and the event it names answers alike. -/
theorem soundTimerAndReportsAreUnread : Obligations.SoundTimerAndReportsAreUnread :=
  fun s t st reports h => step_unread s st reports t h

end Sys2Proof.Machine
end

section
/-! SUPPORT. The fault latch and the reset state (spec/10_state.md R31, R33). -/

namespace Sys2Proof.Machine

/-- Settles O9: each code is the latch's value read through `errCode`. -/
theorem faultCodesOfErr : Obligations.FaultCodesOfErr := by
  intro s
  refine ⟨fun hrunning => ?_, rfl, rfl, rfl, rfl⟩
  unfold State.running at hrunning
  rw [State.errCode, hrunning]

/-- A halted machine's cycle does nothing. -/
theorem instructionCycle_of_halted {s : State} {f : Fault} (hf : s.err = some f) : instructionCycle s = .next s := by
  simp [instructionCycle, hf]

/-- Settles O8: of the events only Reset does more to a halted machine than move a timer or a key. -/
theorem haltedUntilReset : Obligations.HaltedUntilReset := by
  intro s t f hf h
  obtain ⟨_, hstep⟩ | ⟨e, rest, hsched, hstep⟩ := step_cases s
  · cases (hstep.trans (instructionCycle_of_halted hf)).symm.trans h
    exact .inr rfl
  · have hevent := hstep.symm.trans h
    cases e with
    | reset rom => exact .inl ⟨rom, rest, hsched⟩
    | step =>
      cases (instructionCycle_of_halted (s := { s with schedule := rest }) hf).symm.trans hevent
      exact .inr rfl
    | tick | press | release =>
      cases hevent
      exact .inr rfl

/-- At reset nothing is listed, so that every byte is its reset contents: the font at address 0, and 0 after it (R67). -/
theorem byteAt_reset (a : Nat) : State.reset.byteAt a = Memory.initial {} a := rfl

theorem byteAt_reset_above_font {a : Nat} (ha : 80 ≤ a) : State.reset.byteAt a = 0 :=
  (byteAt_reset a).trans (if_neg fun h => Nat.not_lt.2 ha h.2)

/-- Settles O39: every clause evaluates at the reset state, but for the bytes above the font and the pixels, which are lemmas. -/
theorem resetStateValues : Obligations.ResetStateValues :=
  ⟨rfl, rfl, rfl, rfl, rfl, rfl, rfl, by decide, by decide, Frame.get_clear, by decide, by decide,
    fun _ => byteAt_reset_above_font⟩

end Sys2Proof.Machine
end

section
/-! SUPPORT. Bytes that register-dump stored, read back by a fetch (spec/20_memory.md R63, R74). -/

namespace Sys2Proof.Machine

variable {s t : State}

/-- A register-dump that latched nothing was in bounds and stored its registers. -/
theorem eq_storeBytes_of_exec_dump {x : Reg} (h : exec (.dump x) s = .next t) (ht : t.running) :
    s.indexAddr x.val ≤ 4095 ∧ t = s.storeBytes (s.indexAddr 0) (dumpBytes s x) := by
  obtain ⟨hbound, hdump⟩ | ⟨_, hfault⟩ := execDump_cases s x
  · exact ⟨hbound, Host.Outcome.next.inj (h.symm.trans hdump)⟩
  · cases h.symm.trans hfault
    exact nomatch ht

/-- After an in-bounds register-dump, Memory at I + k reads as Vk (R174). -/
theorem byteAt_storeBytes_dumpBytes {x k : Reg} (hm : Memory.wf s.cfg s.mem = true) (hbound : s.indexAddr x.val ≤ 4095)
    (hk : k.val ≤ x.val) : (s.storeBytes (s.indexAddr 0) (dumpBytes s x)).byteAt (s.indexAddr k.val) = s.reg k := by
  have hfit : s.indexAddr 0 + (dumpBytes s x).length ≤ 4096 := by
    rw [dumpBytes_length]
    unfold State.indexAddr at hbound ⊢
    omega
  have hlt : k.val < (dumpBytes s x).length := by rw [dumpBytes_length]; omega
  calc (s.storeBytes (s.indexAddr 0) (dumpBytes s x)).byteAt (s.indexAddr 0 + k.val)
      = (dumpBytes s x)[k.val] := State.byteAt_storeBytes_inside hfit hm hlt
    _ = s.reg k := List.getElem_eq_iff hlt |>.2 (dumpBytes_get s x k hk)

/-- A byte of Memory depends on the listed cells and the parameters only. -/
theorem State.byteAt_congr (hmem : t.mem = s.mem) (hcfg : t.cfg = s.cfg) (a : Nat) : t.byteAt a = s.byteAt a := by
  unfold State.byteAt
  rw [hmem, hcfg]

/-- In bounds, fetch answers the word at PC and advances PC by 2 (R120). -/
theorem State.fetch_of_wordAtPc {w : Word} (hpc : s.pc.toNat ≤ 4094) (hw : s.wordAtPc w) :
    s.fetch = some (w, s.setPc (s.pc + 2)) := by
  obtain ⟨hout, _⟩ | ⟨_, hfetch⟩ := s.fetch_cases
  · omega
  · rw [hfetch, wordOfBytes_at_pc hw]

/-- Settles O27: the two bytes at PC are the registers the dump stored there, and the first of them is below the last. -/
theorem dumpedCodeIsFetched : Obligations.DumpedCodeIsFetched := by
  intro s t x k k' hm _ h ht hk' hle u w hmem hcfg hpc hw
  obtain ⟨hbound, rfl⟩ := eq_storeBytes_of_exec_dump h ht
  have hnext : u.pc.toNat + 1 = s.indexAddr k'.val := by rw [hpc, hk']; rfl
  have hhigh : u.byteAt u.pc.toNat = s.reg k := by
    rw [State.byteAt_congr hmem hcfg, hpc, byteAt_storeBytes_dumpBytes hm hbound (by omega)]
  have hlow : u.byteAt (u.pc.toNat + 1) = s.reg k' := by
    rw [State.byteAt_congr hmem hcfg, hnext, byteAt_storeBytes_dumpBytes hm hbound hle]
  have hin : u.pc.toNat ≤ 4094 := by
    unfold State.indexAddr at hnext hbound
    omega
  refine ⟨?_, State.fetch_of_wordAtPc hin hw⟩
  rw [← hhigh, ← hlow]
  exact hw

end Sys2Proof.Machine
end

section
/-! SUPPORT. Encoding and decoding undo each other (spec/30_encoding.md R90 to R97): the decoder reads an instruction back from
its word, and the word a format makes of a word's own fields is that word. -/

namespace Sys2Proof.Machine

/-! ## Decoding what was encoded -/

/-- What the decoder reads in a word, it reads in the word's bytes with any bytes after them. -/
theorem decode_bytesOfWord_append {w : Word} {i : Instr} (h : decodeWord w = .ok i) (rest : List Byte) :
    decode (bytesOfWord w ++ rest) = .ok (i, rest) := by
  simp [bytesOfWord, decode, wordOfBytes_bytes, h]

/-- The fields of a word of each format are the operands it was made of, and select the instruction's own row of R95. -/
theorem decodeWord_encodeWord {i : Instr} (hwf : i.wf = true) : decodeWord (encodeWord i) = .ok i := by
  cases i with
  | cls | ret => rfl
  | jp | call | ldI | jpV0 =>
    simp [encodeWord, decodeWord, fieldFamily_formatA, fieldNNN_formatA]
  | seImm | sneImm | ldImm | addImm | rnd =>
    simp [encodeWord, decodeWord, fieldFamily_formatK, fieldX_formatK, fieldKK_formatK]
  | seReg | sneReg =>
    simp [encodeWord, decodeWord, fieldFamily_formatR, fieldX_formatR, fieldY_formatR, fieldN_formatR]
  | ldReg | orReg | andReg | xorReg | addReg | subReg | shr | subnReg | shl =>
    simp [encodeWord, decodeWord, decodeFamily8, fieldFamily_formatR, fieldX_formatR, fieldY_formatR, fieldN_formatR]
  | drw x y n =>
    have hn : n < 16 := of_decide_eq_true hwf
    simp [encodeWord, decodeWord, fieldFamily_formatR, fieldX_formatR, fieldY_formatR, fieldN_formatR, hn]
  | skp | sknp =>
    simp [encodeWord, decodeWord, decodeFamilyE, fieldFamily_formatX, fieldX_formatX, fieldKK_formatX]
  | ldVxDT | ldVxK | ldDTVx | ldSTVx | addI | ldF | ldB | dump | load =>
    simp [encodeWord, decodeWord, decodeFamilyF, fieldFamily_formatX, fieldX_formatX, fieldKK_formatX]

/-- Settles O1: the decoder reads the word back from its bytes, and the instruction from its word. -/
theorem decodeOfEncodeIsIdentity : Obligations.DecodeOfEncodeIsIdentity :=
  fun _ rest hwf => decode_bytesOfWord_append (decodeWord_encodeWord hwf) rest

/-! ## The word made of a word's own fields -/

variable {w : Word} {f n sub : Nat}

theorem formatA_fields (hf : fieldFamily w = f) : formatA f (fieldNNN w) = w := by
  apply BitVec.eq_of_toNat_eq
  simp [formatA, ← hf, fieldFamily_eq, fieldNNN_toNat]
  omega

theorem formatK_fields (hf : fieldFamily w = f) : formatK f (fieldX w) (fieldKK w) = w := by
  apply BitVec.eq_of_toNat_eq
  simp [formatK, ← hf, fieldFamily_eq, fieldX_val, fieldKK_toNat]
  omega

theorem formatR_fields (hf : fieldFamily w = f) (hn : fieldN w = n) : formatR f (fieldX w) (fieldY w) n = w := by
  apply BitVec.eq_of_toNat_eq
  simp [formatR, ← hf, ← hn, fieldFamily_eq, fieldX_val, fieldY_val, fieldN_eq]
  omega

theorem formatX_fields (hf : fieldFamily w = f) (hs : (fieldKK w).toNat = sub) : formatX f (fieldX w) sub = w := by
  apply BitVec.eq_of_toNat_eq
  simp [formatX, ← hf, ← hs, fieldFamily_eq, fieldX_val, fieldKK_toNat]
  omega

/-! ## What the decoder answers -/

/-- The word is in the family table of R96. -/
def InFamilyTable (w : Word) : Prop :=
  (fieldFamily w = 0x0 ∧ w ≠ 0x00E0 ∧ w ≠ 0x00EE) ∨
  (fieldFamily w = 0x5 ∧ fieldN w ≠ 0) ∨
  (fieldFamily w = 0x8 ∧ fieldN w ∈ [0x8, 0x9, 0xA, 0xB, 0xC, 0xD, 0xF]) ∨
  (fieldFamily w = 0x9 ∧ fieldN w ≠ 0) ∨
  (fieldFamily w = 0xE ∧ (fieldKK w).toNat ∉ [0x9E, 0xA1]) ∨
  (fieldFamily w = 0xF ∧ (fieldKK w).toNat ∉ [0x07, 0x0A, 0x15, 0x18, 0x1E, 0x29, 0x33, 0x55, 0x65])

/-- An answer that R95 and R96 allow for `w`: in the family table an unknown combination, outside it a well-formed instruction
whose word is `w`. -/
inductive DecodesAs (w : Word) : Except DecodeError Instr → Prop
  | instr {i : Instr} (known : ¬ InFamilyTable w) (wf : i.wf = true) (word : encodeWord i = w) : DecodesAs w (.ok i)
  | unknown (table : InFamilyTable w) : DecodesAs w (.error (.unknownCombination w))

theorem fieldN_lt (w : Word) : fieldN w < 16 := Nat.mod_lt _ (by decide)

theorem fieldFamily_lt (w : Word) : fieldFamily w < 16 := Nat.mod_lt _ (by decide)

theorem decodeFamily0_decodesAs (hf : fieldFamily w = 0x0) : DecodesAs w (decodeFamily0 w) := by
  unfold decodeFamily0
  split_ifs with hcls hret
  · subst hcls
    exact .instr (by unfold InFamilyTable; decide) rfl rfl
  · subst hret
    exact .instr (by unfold InFamilyTable; decide) rfl rfl
  · exact .unknown (.inl ⟨hf, hcls, hret⟩)

theorem decodeFamily8_decodesAs (hf : fieldFamily w = 0x8) : DecodesAs w (decodeFamily8 w) := by
  have hlt : fieldN w < 16 := fieldN_lt w
  unfold decodeFamily8
  split
  case h_10 =>
    refine .unknown (.inr (.inr (.inl ⟨hf, ?_⟩)))
    simp only [List.mem_cons, List.not_mem_nil, or_false, imp_false] at *
    omega
  all_goals
    next hn => exact .instr (by simp [InFamilyTable, hf, hn]) rfl (formatR_fields hf hn)

theorem decodeFamilyE_decodesAs (hf : fieldFamily w = 0xE) : DecodesAs w (decodeFamilyE w) := by
  simp only [decodeFamilyE, BitVec.toNat_eq]
  split_ifs with hkk hkk'
  · exact .instr (by simp [InFamilyTable, hf, hkk]) rfl (formatX_fields hf hkk)
  · exact .instr (by simp [InFamilyTable, hf, hkk']) rfl (formatX_fields hf hkk')
  · exact .unknown (by simp_all [InFamilyTable])

theorem decodeFamilyF_decodesAs (hf : fieldFamily w = 0xF) : DecodesAs w (decodeFamilyF w) := by
  simp only [decodeFamilyF, BitVec.toNat_eq]
  split_ifs
  case neg => exact .unknown (by simp_all [InFamilyTable])
  all_goals
    next hkk => exact .instr (by simp [InFamilyTable, hf, hkk]) rfl (formatX_fields hf hkk)

/-- The families with one row each decode every word of theirs; 5 and 9 want n = 0; the others are the lemmas above. -/
theorem decodeWord_decodesAs (w : Word) : DecodesAs w (decodeWord w) := by
  have hlt : fieldFamily w < 16 := fieldFamily_lt w
  unfold decodeWord
  split
  case h_1 hf => exact decodeFamily0_decodesAs hf
  case h_9 hf => exact decodeFamily8_decodesAs hf
  case h_15 hf => exact decodeFamilyE_decodesAs hf
  case h_16 hf => exact decodeFamilyF_decodesAs hf
  case h_2 hf | h_3 hf | h_11 hf | h_12 hf =>
    exact .instr (by simp [InFamilyTable, hf]) rfl (formatA_fields hf)
  case h_4 hf | h_5 hf | h_7 hf | h_8 hf | h_13 hf =>
    exact .instr (by simp [InFamilyTable, hf]) rfl (formatK_fields hf)
  case h_6 hf | h_10 hf =>
    split_ifs with hn
    · exact .instr (by simp [InFamilyTable, hf, hn]) rfl (formatR_fields hf hn)
    · exact .unknown (by simp [InFamilyTable, hf, hn])
  case h_14 hf =>
    exact .instr (by simp [InFamilyTable, hf]) (decide_eq_true (fieldN_lt w)) (formatR_fields hf rfl)
  case h_17 =>
    simp only [imp_false] at *
    omega

/-- Settles O2: outside the family table the decoder's instruction is one whose word is `w`. -/
theorem encodeOfDecodeIsIdentity : Obligations.EncodeOfDecodeIsIdentity := by
  intro w i h
  cases h ▸ decodeWord_decodesAs w with
  | instr known wf word => exact ⟨wf, word⟩

theorem decodeWord_of_inFamilyTable (h : InFamilyTable w) : decodeWord w = .error (.unknownCombination w) := by
  generalize hr : decodeWord w = r
  cases hr ▸ decodeWord_decodesAs w with
  | instr known => exact absurd h known
  | unknown => rfl

/-- Settles O4: the decoder answers no instruction exactly in the family table. -/
theorem unknownCombinationsAreTheFamilyTable : Obligations.UnknownCombinationsAreTheFamilyTable := by
  rintro w family n kk rfl rfl rfl
  rw [← fieldFamily_eq, ← fieldN_eq, ← fieldKK_toNat]
  change _ ↔ InFamilyTable w
  refine ⟨fun hnone => ?_, fun htable i hi => ?_⟩
  · generalize hr : decodeWord w = r at hnone
    cases hr ▸ decodeWord_decodesAs w with
    | @instr i => exact absurd rfl (hnone i)
    | unknown table => exact table
  · cases (decodeWord_of_inFamilyTable htable).symm.trans hi

/-! ## The rows of the opcode map -/

theorem decodeWord_of_encodeWord {i : Instr} (hwf : i.wf = true) (h : encodeWord i = w) : decodeWord w = .ok i :=
  h ▸ decodeWord_encodeWord hwf

/-- Under the mask of the high nibble, a word matches a row exactly if its family is the row's. -/
theorem and_family_eq_iff (w m : Word) : w &&& 0xF000 = m ↔ fieldFamily w = m.toNat / 4096 ∧ m.toNat % 4096 = 0 := by
  rw [BitVec.toNat_eq, mask_family, fieldFamily_eq]
  omega

/-- Under the mask of the high and the low nibble, exactly if its family and its n are the row's. -/
theorem and_family_low_eq_iff (w m : Word) :
    w &&& 0xF00F = m ↔ fieldFamily w = m.toNat / 4096 ∧ fieldN w = m.toNat % 4096 := by
  rw [BitVec.toNat_eq, mask_family_low, fieldFamily_eq, fieldN_eq]
  omega

/-- Under the mask of the high nibble and the low byte, exactly if its family and its kk are the row's. -/
theorem and_family_byte_eq_iff (w m : Word) :
    w &&& 0xF0FF = m ↔ fieldFamily w = m.toNat / 4096 ∧ (fieldKK w).toNat = m.toNat % 4096 := by
  rw [BitVec.toNat_eq, mask_family_byte, fieldFamily_eq, fieldKK_toNat]
  omega

/-- A word that matches no row is in the family table: in each family, the rows there leave exactly the table's line. In family 8
the table names the values of n that are left, which are the rest below 16. -/
theorem inFamilyTable_of_no_row (h : ∀ row ∈ opcodeRows, w &&& row.2 ≠ row.1) : InFamilyTable w := by
  have hfamily := fieldFamily_lt w
  have hn := fieldN_lt w
  simp only [opcodeRows, List.cons_append, List.nil_append, List.forall_mem_cons, mask_all, ne_eq,
    and_family_eq_iff, and_family_low_eq_iff, and_family_byte_eq_iff] at h
  unfold InFamilyTable
  by_cases hf : fieldFamily w = 8
  · simp [hf] at h ⊢
    omega
  · generalize fieldFamily w = f at *
    interval_cases f <;> simp_all

section
/-! A row is given by its match `m` and the instruction `i` of the word's fields, encoded in the row's format; one lemma per
format of R92. -/

variable {m : Word} (i : Instr) (hwf : i.wf = true)
include hwf

theorem decodeWord_of_row_A (henc : encodeWord i = formatA (m.toNat / 4096) (fieldNNN w)) (h : w &&& 0xF000 = m) :
    decodeWord w = .ok i :=
  decodeWord_of_encodeWord hwf (henc.trans (formatA_fields ((and_family_eq_iff w m).mp h).1))

theorem decodeWord_of_row_K (henc : encodeWord i = formatK (m.toNat / 4096) (fieldX w) (fieldKK w))
    (h : w &&& 0xF000 = m) : decodeWord w = .ok i :=
  decodeWord_of_encodeWord hwf (henc.trans (formatK_fields ((and_family_eq_iff w m).mp h).1))

/-- Format D is format R with the row count for its low nibble, under the mask of the high nibble alone. -/
theorem decodeWord_of_row_D (henc : encodeWord i = formatR (m.toNat / 4096) (fieldX w) (fieldY w) (fieldN w))
    (h : w &&& 0xF000 = m) : decodeWord w = .ok i :=
  decodeWord_of_encodeWord hwf (henc.trans (formatR_fields ((and_family_eq_iff w m).mp h).1 rfl))

theorem decodeWord_of_row_R (henc : encodeWord i = formatR (m.toNat / 4096) (fieldX w) (fieldY w) (m.toNat % 4096))
    (h : w &&& 0xF00F = m) : decodeWord w = .ok i := by
  obtain ⟨hfamily, hlow⟩ := (and_family_low_eq_iff w m).mp h
  exact decodeWord_of_encodeWord hwf (henc.trans (formatR_fields hfamily hlow))

theorem decodeWord_of_row_X (henc : encodeWord i = formatX (m.toNat / 4096) (fieldX w) (m.toNat % 4096))
    (h : w &&& 0xF0FF = m) : decodeWord w = .ok i := by
  obtain ⟨hfamily, hbyte⟩ := (and_family_byte_eq_iff w m).mp h
  exact decodeWord_of_encodeWord hwf (henc.trans (formatX_fields hfamily hbyte))

end

/-- Settles O3: a row's instruction of the word's own fields encodes to that word, and a word of no row is in the family table. -/
theorem decodeFollowsOpcodeMap : Obligations.DecodeFollowsOpcodeMap := by
  rintro w x y kk nnn n hx hy hkk hnnn rfl
  obtain rfl : x = fieldX w := Fin.ext (hx.trans (fieldX_val w).symm)
  obtain rfl : y = fieldY w := Fin.ext (hy.trans (fieldY_val w).symm)
  obtain rfl : kk = fieldKK w := BitVec.eq_of_toNat_eq (hkk.trans (fieldKK_toNat w).symm)
  obtain rfl : nnn = fieldNNN w := BitVec.eq_of_toNat_eq (hnnn.trans (fieldNNN_toNat w).symm)
  rw [← fieldN_eq]
  exact ⟨
    fun h => decodeWord_of_encodeWord rfl (h.symm.trans (mask_all w)),
    fun h => decodeWord_of_encodeWord rfl (h.symm.trans (mask_all w)),
    decodeWord_of_row_A (.jp _) rfl rfl,
    decodeWord_of_row_A (.call _) rfl rfl,
    decodeWord_of_row_K (.seImm _ _) rfl rfl,
    decodeWord_of_row_K (.sneImm _ _) rfl rfl,
    decodeWord_of_row_R (.seReg _ _) rfl rfl,
    decodeWord_of_row_K (.ldImm _ _) rfl rfl,
    decodeWord_of_row_K (.addImm _ _) rfl rfl,
    decodeWord_of_row_R (.ldReg _ _) rfl rfl,
    decodeWord_of_row_R (.orReg _ _) rfl rfl,
    decodeWord_of_row_R (.andReg _ _) rfl rfl,
    decodeWord_of_row_R (.xorReg _ _) rfl rfl,
    decodeWord_of_row_R (.addReg _ _) rfl rfl,
    decodeWord_of_row_R (.subReg _ _) rfl rfl,
    decodeWord_of_row_R (.shr _ _) rfl rfl,
    decodeWord_of_row_R (.subnReg _ _) rfl rfl,
    decodeWord_of_row_R (.shl _ _) rfl rfl,
    decodeWord_of_row_R (.sneReg _ _) rfl rfl,
    decodeWord_of_row_A (.ldI _) rfl rfl,
    decodeWord_of_row_A (.jpV0 _) rfl rfl,
    decodeWord_of_row_K (.rnd _ _) rfl rfl,
    decodeWord_of_row_D (.drw _ _ _) (decide_eq_true (fieldN_lt w)) rfl,
    decodeWord_of_row_X (.skp _) rfl rfl,
    decodeWord_of_row_X (.sknp _) rfl rfl,
    decodeWord_of_row_X (.ldVxDT _) rfl rfl,
    decodeWord_of_row_X (.ldVxK _) rfl rfl,
    decodeWord_of_row_X (.ldDTVx _) rfl rfl,
    decodeWord_of_row_X (.ldSTVx _) rfl rfl,
    decodeWord_of_row_X (.addI _) rfl rfl,
    decodeWord_of_row_X (.ldF _) rfl rfl,
    decodeWord_of_row_X (.ldB _) rfl rfl,
    decodeWord_of_row_X (.dump _) rfl rfl,
    decodeWord_of_row_X (.load _) rfl rfl,
    fun h => decodeWord_of_inFamilyTable (inFamilyTable_of_no_row h)⟩

/-- Settles O5: each word evaluates. -/
theorem sampleWordsDecode : Obligations.SampleWordsDecode := ⟨rfl, rfl, rfl, rfl, rfl, rfl, rfl⟩

end Sys2Proof.Machine
end

section
/-! SUPPORT. Control transfer (spec/40_control.md R120 to R130): a return after a call, the targets of the jumps, the skips, and
what an instruction cycle is by the guard that holds. -/

namespace Sys2Proof.Machine

variable {s t : State}

/-! ## Return and call -/

theorem exec_ret_of_append {rest : List Word} {r : Word} (h : s.stack = rest ++ [r]) :
    exec .ret s = .next { s with pc := r, stack := rest } := by
  obtain ⟨hempty, _⟩ | ⟨rest', r', hstack, hret⟩ := execRet_cases s
  · simp [h] at hempty
  · obtain ⟨rfl, hr⟩ := List.append_inj' (h.symm.trans hstack) rfl
    cases hr
    exact hret

theorem exec_ret_of_nil (h : s.stack = []) : exec .ret s = .next (latched s .stackUnderflow) := by
  obtain ⟨_, hret⟩ | ⟨rest, r, hstack, _⟩ := execRet_cases s
  · exact hret
  · simp [h] at hstack

/-- Settles O12: the newest entry is the last of the list, so the stack's two forms are return's two cases. -/
theorem returnPopsNewestEntry : Obligations.ReturnPopsNewestEntry :=
  ⟨fun _ _ _ => exec_ret_of_append, fun _ => exec_ret_of_nil⟩

/-- Settles O13: the two cases of call are the two sides of the limit. -/
theorem callPushesPc : Obligations.CallPushesPc := by
  intro s nnn
  obtain ⟨hfull, hcall⟩ | ⟨hfree, hcall⟩ := execCall_cases s nnn
  · exact ⟨fun hne => absurd hfull hne, fun _ => hcall⟩
  · exact ⟨fun _ => ⟨zext16 nnn, zext16_toNat nnn, hcall⟩, fun hlimit => absurd hlimit hfree⟩

/-- A call that latched nothing pushed its PC. -/
theorem stack_of_exec_call {nnn : Addr12} (h : exec (.call nnn) s = .next t) (ht : t.running) :
    t.stack = s.stack ++ [s.pc] := by
  obtain ⟨_, hfault⟩ | ⟨_, hcall⟩ := execCall_cases s nnn
  · cases h.symm.trans hfault
    exact nomatch ht
  · cases h.symm.trans hcall
    rfl

/-- Settles O14: the entry the call pushed is the newest when the return pops. -/
theorem callThenReturnResumes : Obligations.CallThenReturnResumes := by
  intro s t u nnn _ hcall ht hstack
  exact exec_ret_of_append (hstack.trans (stack_of_exec_call hcall ht))

/-! ## Jumps and skips -/

theorem changesOnlyPc_setPc (s : State) (w : Word) : ChangesOnlyPc s (s.setPc w) := ⟨rfl, fun _ => rfl⟩

/-- The sum of a 12-bit address and a byte does not wrap at 16 bits, so the offset jump's target is not masked (R126). -/
theorem offsetTarget_toNat (s : State) (nnn : Addr12) : (offsetTarget s nnn).toNat = nnn.toNat + (s.reg 0).toNat := by
  have hn := nnn.isLt
  have hv := (s.reg 0).isLt
  simp only [offsetTarget, BitVec.toNat_add, zext16_toNat, BitVec.toNat_setWidth]
  omega

/-- Settles O15: both jumps are `setPc`, and the value of each target is a lemma. -/
theorem jumpsLoadPc : Obligations.JumpsLoadPc := fun s nnn =>
  ⟨⟨_, rfl, zext16_toNat nnn, changesOnlyPc_setPc s _⟩, ⟨_, rfl, offsetTarget_toNat s nnn, changesOnlyPc_setPc s _⟩⟩

theorem skipsWhen_skipIf (s : State) {c : Bool} {taken : Prop} (h : c = true ↔ taken) :
    SkipsWhen s (s.skipIf c) taken := by
  cases c with
  | false =>
    have hnot : ¬ taken := fun htaken => nomatch h.2 htaken
    exact ⟨fun htaken => absurd htaken hnot, fun _ => rfl, changesOnlyPc_setPc s s.pc⟩
  | true =>
    exact ⟨fun _ => BitVec.toNat_add s.pc 2, fun hnot => absurd (h.1 rfl) hnot, changesOnlyPc_setPc s (s.pc + 2)⟩

/-- Settles O16: each of the four is `skipIf` of its condition. -/
theorem registerSkips : Obligations.RegisterSkips := fun s _ _ _ =>
  ⟨⟨_, rfl, skipsWhen_skipIf s decide_eq_true_iff⟩, ⟨_, rfl, skipsWhen_skipIf s decide_eq_true_iff⟩,
    ⟨_, rfl, skipsWhen_skipIf s decide_eq_true_iff⟩, ⟨_, rfl, skipsWhen_skipIf s decide_eq_true_iff⟩⟩

/-! ## The instruction cycle -/

theorem instructionCycle_of_not_running (h : ¬ s.running) : instructionCycle s = .next s := by
  obtain ⟨f, hf⟩ := Option.ne_none_iff_exists'.1 h
  exact instructionCycle_of_halted hf

theorem instructionCycle_of_fetch_out_of_bounds (hrun : s.running) (hpc : 4095 ≤ s.pc.toNat) :
    instructionCycle s = .next (latched s .addressOutOfBounds) := by
  obtain ⟨herr, _⟩ | ⟨_, _, hcycle⟩ | ⟨_, hin, _⟩ := instructionCycle_cases s
  · exact absurd hrun (Option.isSome_iff_ne_none.1 herr)
  · exact hcycle
  · omega

theorem instructionCycle_of_wordAtPc {w : Word} (hrun : s.running) (hpc : s.pc.toNat ≤ 4094) (hw : s.wordAtPc w) :
    instructionCycle s = execWord w (s.setPc (s.pc + 2)) := by
  obtain ⟨herr, _⟩ | ⟨_, hout, _⟩ | ⟨_, _, hcycle⟩ := instructionCycle_cases s
  · exact absurd hrun (Option.isSome_iff_ne_none.1 herr)
  · omega
  · rw [hcycle, wordOfBytes_at_pc hw]

theorem execWord_of_decodeWord {w : Word} {i : Instr} (h : decodeWord w = .ok i) : execWord w s = exec i s := by
  rw [execWord, h]

theorem execWord_of_no_instr {w : Word} (h : ∀ i, decodeWord w ≠ .ok i) : execWord w s = .next (s.report w) := by
  obtain ⟨i, hi, _⟩ | ⟨_, _, hreport⟩ := execWord_cases w s
  · exact absurd hi (h i)
  · exact hreport

/-- Settles O6: the step is the cycle of `s'`, which is `s` but for its schedule; the guards of the statement are the cycle's. -/
theorem stepRunsDecodedInstruction : Obligations.StepRunsDecodedInstruction := by
  intro s s' w h
  rw [step_of_stepNext h]
  have hs' := stepNext_eq h
  generalize s'.schedule = schedule at hs'
  subst hs'
  refine ⟨fun hhalt => instructionCycle_of_not_running hhalt,
    fun hrun hpc => instructionCycle_of_fetch_out_of_bounds hrun hpc, fun hrun hpc hw => ?_⟩
  rw [instructionCycle_of_wordAtPc (s := { s with schedule := schedule }) hrun hpc hw]
  exact ⟨fun i hi => ⟨(encodeOfDecodeIsIdentity w i hi).1, execWord_of_decodeWord hi⟩, execWord_of_no_instr⟩

end Sys2Proof.Machine
end

section
/-! SUPPORT. The register datapath (spec/41_alu.md R140 to R155): what a register write alone and a write with a flag leave, the
value of each flag and shift as a number, and the byte the random instruction takes. -/

namespace Sys2Proof.Machine

/-! ## Writes to Vx, with and without a flag -/

theorem setsRegister_setReg (s : State) (x : Reg) {b : Byte} {r : Nat} (hb : b.toNat = r) :
    SetsRegister s (s.setReg x b) x r :=
  ⟨by simpa using hb, fun k hk => by simp [hk], s.setReg_eq x b, s.byteAt_setReg x b⟩

theorem setsRegisterAndFlag_setRegFlag (s : State) (x : Reg) {b flag : Byte} {r f : Nat} (hb : b.toNat = r)
    (hflag : flag.toNat = f) : SetsRegisterAndFlag s (s.setRegFlag x b flag) x r f :=
  ⟨by simpa [vf] using hflag, fun hx => by simpa [vf, hx] using hb, fun k hkx hk => by simp [vf, hkx, hk],
    s.setRegFlag_eq x b flag, s.byteAt_setRegFlag x b flag⟩

/-- Settles O17: both are `setReg`, and byte addition is addition modulo 256. -/
theorem setAndAddImmediate : Obligations.SetAndAddImmediate := fun s x kk =>
  ⟨⟨_, rfl, setsRegister_setReg s x rfl⟩, ⟨_, rfl, setsRegister_setReg s x (BitVec.toNat_add (s.reg x) kk)⟩⟩

/-- Settles O18: each of the four is `setReg`, and the bitwise operations agree with those on numbers. -/
theorem copyAndLogic : Obligations.CopyAndLogic := fun s x y =>
  ⟨⟨_, rfl, setsRegister_setReg s x rfl⟩,
    ⟨_, rfl, setsRegister_setReg s x (BitVec.toNat_or (s.reg x) (s.reg y))⟩,
    ⟨_, rfl, setsRegister_setReg s x (BitVec.toNat_and (s.reg x) (s.reg y))⟩,
    ⟨_, rfl, setsRegister_setReg s x (BitVec.toNat_xor (s.reg x) (s.reg y))⟩⟩

/-! ## Flags and results as numbers -/

theorem flagByte_decide_toNat (c : Prop) [Decidable c] : (flagByte (decide c)).toNat = if c then 1 else 0 := by
  by_cases h : c <;> simp [flagByte, h]

theorem carry_toNat (p q : Byte) : (carry p q).toNat = if p.toNat + q.toNat > 255 then 1 else 0 :=
  flagByte_decide_toNat _

theorem notBorrow_toNat (p q : Byte) : (notBorrow p q).toNat = if p.toNat ≥ q.toNat then 1 else 0 :=
  flagByte_decide_toNat _

/-- Bit `k` of a byte, as a flag, is a digit of its binary expansion. -/
theorem flagByte_getLsbD_toNat (p : Byte) (k : Nat) : (flagByte (p.getLsbD k)).toNat = p.toNat / 2 ^ k % 2 := by
  rw [← BitVec.testBit_toNat, Nat.testBit_eq_decide_div_mod_eq, flagByte_decide_toNat]
  split <;> omega

theorem lowBit_toNat (p : Byte) : (lowBit p).toNat = p.toNat % 2 := by
  rw [lowBit, flagByte_getLsbD_toNat, Nat.pow_zero, Nat.div_one]

/-- The top bit of a byte is its quotient by 128, which is below 2. -/
theorem highBit_toNat (p : Byte) : (highBit p).toNat = p.toNat / 128 := by
  have hlt := p.isLt
  rw [highBit, flagByte_getLsbD_toNat]
  omega

/-- Byte subtraction is the non-negative remainder of R140. -/
theorem sub_toNat (p q : Byte) : (p - q).toNat = (p.toNat + 256 - q.toNat) % 256 := by
  have hlt := q.isLt
  rw [BitVec.toNat_sub]
  omega

theorem shiftRight_one_toNat (p : Byte) : (p >>> 1).toNat = p.toNat / 2 := by
  rw [BitVec.toNat_ushiftRight, Nat.shiftRight_one]

theorem shiftLeft_one_toNat (p : Byte) : (p <<< 1).toNat = 2 * p.toNat % 256 := by
  rw [BitVec.toNat_shiftLeft, Nat.shiftLeft_eq, Nat.mul_comm, Nat.pow_one]

/-- Settles O19: each of the three is `setRegFlag` of its result and its flag. -/
theorem addSubtractWithFlag : Obligations.AddSubtractWithFlag := by
  rintro s x y _ _ rfl rfl
  exact ⟨⟨_, rfl, setsRegisterAndFlag_setRegFlag s x (BitVec.toNat_add _ _) (carry_toNat _ _)⟩,
    ⟨_, rfl, setsRegisterAndFlag_setRegFlag s x (sub_toNat _ _) (notBorrow_toNat _ _)⟩,
    ⟨_, rfl, setsRegisterAndFlag_setRegFlag s x (sub_toNat _ _) (notBorrow_toNat _ _)⟩⟩

/-- Settles O20: both shifts are `setRegFlag` of the shifted byte and the bit that leaves it; `y` is not read. -/
theorem shiftsMoveBoundaryBit : Obligations.ShiftsMoveBoundaryBit := by
  rintro s x y _ rfl
  exact ⟨⟨_, rfl, setsRegisterAndFlag_setRegFlag s x (shiftRight_one_toNat _) (lowBit_toNat _)⟩,
    ⟨_, rfl, setsRegisterAndFlag_setRegFlag s x (shiftLeft_one_toNat _) (highBit_toNat _)⟩⟩

/-! ## The random input -/

variable {s : State}

theorem State.randomInput_of_cons {b : Byte} {rest : List Byte} (h : s.rndSupply = b :: rest) : s.randomInput = b := by
  rw [State.randomInput, h]

theorem State.randomInput_of_nil (h : s.rndSupply = []) : s.randomInput = Config.randomByte s.rndCount := by
  rw [State.randomInput, h]

/-- What random leaves, whichever byte `b` is on the input and whatever supply `rest` follows it (R155). -/
theorem exec_rnd_of_randomInput {x : Reg} {kk b : Byte} {rest : List Byte} (hinput : s.randomInput = b)
    (hrest : s.rndSupply.tail = rest) :
    ∃ t, exec (.rnd x kk) s = .next t ∧ t.reg x = b &&& kk ∧ (∀ k, k ≠ x → t.reg k = s.reg k) ∧
      t = { s with v := t.v, rndSupply := rest, rndCount := s.rndCount + 1 } ∧ ∀ a, t.byteAt a = s.byteAt a := by
  subst hinput hrest
  exact ⟨_, rfl, by simp, fun k hk => by simp [hk], rfl, fun _ => rfl⟩

/-- Settles O21: a supplied byte is the head of the supply, and an empty supply is its own tail. -/
theorem randomIsMaskedInput : Obligations.RandomIsMaskedInput := fun _ _ _ _ =>
  ⟨fun _ h => exec_rnd_of_randomInput (State.randomInput_of_cons h) (by rw [h, List.tail_cons]),
    fun h => exec_rnd_of_randomInput (State.randomInput_of_nil h) (by rw [h, List.tail_nil])⟩

end Sys2Proof.Machine
end

section
/-! SUPPORT. The index register and the data accesses (spec/42_index_memory.md R170 to R176): what a write of I leaves, the value
of each, and the bytes and registers an access moves. -/

namespace Sys2Proof.Machine

/-! ## The index register -/

theorem changesOnlyIndexRegs_setI (s : State) (w : Word) : ChangesOnlyIndexRegs s (s.setI w) := ⟨rfl, s.byteAt_setI w⟩

/-- Settles O22: set-index is `setI` of the zero-extended address. -/
theorem setIndexLoadsAddress : Obligations.SetIndexLoadsAddress := fun s nnn =>
  ⟨_, rfl, zext16_toNat nnn, changesOnlyIndexRegs_setI s _, rfl⟩

/-- Adding a byte to a word is addition modulo 65536 (R171). -/
theorem add_byte_toNat (w : Word) (b : Byte) : (w + b.setWidth 16).toNat = (w.toNat + b.toNat) % 65536 := by
  rw [BitVec.toNat_add, BitVec.toNat_setWidth_of_le (by decide)]

/-- R6 keeps the font below 0x200, so that the address of no glyph wraps. -/
theorem fontAddress_toNat {cfg : Config} (hcfg : cfg.wf = true) (d : Fin 16) :
    (fontAddress cfg d).toNat = cfg.fontBase + 5 * d.val := by
  obtain ⟨hfont, _⟩ : cfg.fontBase + 80 ≤ 0x200 ∧ cfg.stackLimit ≠ some 0 := by simpa [Config.wf] using hcfg
  have hd := d.isLt
  exact Nat.mod_eq_of_lt (by omega)

/-- Settles O23: the guard of index += Vx decides whether VF is written; font-address is `setI` of the digit's glyph. -/
theorem indexAddAndFontAddress : Obligations.IndexAddAndFontAddress := by
  rintro s x _ rfl
  refine ⟨?_, _, rfl, changesOnlyIndexRegs_setI s _, rfl, fun hcfg => ?_⟩
  · obtain ⟨hover, hadd⟩ | ⟨hfit, hadd⟩ := execAddI_cases s x
    · exact ⟨_, hadd, add_byte_toNat _ _, ⟨rfl, fun _ => rfl⟩, fun _ => by simp [vf],
        fun hfit => absurd hover (Nat.not_lt.2 hfit), fun k hk => by simp [vf, hk]⟩
    · exact ⟨_, hadd, add_byte_toNat _ _, changesOnlyIndexRegs_setI s _,
        fun hover => absurd hover (Nat.not_lt.2 hfit), fun _ => rfl, fun _ _ => rfl⟩
  · rw [State.setI_i, fontAddress_toNat hcfg, lowNibble_val]

/-! ## Stores -/

theorem changesOnlyBytes_storeBytes (s : State) (a : Nat) {n : Nat} {vs : List Byte} (hlen : vs.length = n) :
    ChangesOnlyBytes s (s.storeBytes a vs) a n :=
  ⟨rfl, fun _ hout => State.byteAt_storeBytes_outside (hlen ▸ hout)⟩

/-- The three digits of a byte as numbers, none of which is cut to 8 bits (R173). -/
theorem bcdDigits_toNat (b : Byte) :
    (bcdDigits b).map BitVec.toNat = [b.toNat / 100, b.toNat / 10 % 10, b.toNat % 10] := by
  have hb := b.isLt
  simp only [bcdDigits, List.map_cons, List.map_nil, BitVec.toNat_ofNat, List.cons.injEq, and_true]
  omega

/-- After an in-bounds store-BCD, Memory at I + k reads as the k-th digit. -/
theorem byteAt_storeBytes_bcdDigits {s : State} (b : Byte) (hm : Memory.wf s.cfg s.mem = true)
    (hbound : s.indexAddr 2 ≤ 4095) {k : Nat} (hk : k < 3) :
    ((s.storeBytes (s.indexAddr 0) (bcdDigits b)).byteAt (s.indexAddr k)).toNat =
      [b.toNat / 100, b.toNat / 10 % 10, b.toNat % 10][k] := by
  have hlen : k < (bcdDigits b).length := hk
  have hread : (s.storeBytes (s.indexAddr 0) (bcdDigits b)).byteAt (s.indexAddr k) = (bcdDigits b)[k] :=
    State.byteAt_storeBytes_inside (Nat.succ_le_succ hbound) hm hlen
  rw [hread, ← List.getElem_map BitVec.toNat]
  · exact List.getElem_of_eq (bcdDigits_toNat b) _
  · rwa [List.length_map]

/-- Settles O24: the two cases of store-BCD are the two sides of the bound. -/
theorem storeBcdDigits : Obligations.StoreBcdDigits := by
  rintro s x _ rfl hm
  obtain ⟨hin, hstore⟩ | ⟨hout, hfault⟩ := execLdB_cases s x
  · exact ⟨fun hbound => ⟨_, hstore, changesOnlyBytes_storeBytes s _ rfl,
      byteAt_storeBytes_bcdDigits _ hm hbound (k := 0) (by decide),
      byteAt_storeBytes_bcdDigits _ hm hbound (k := 1) (by decide),
      byteAt_storeBytes_bcdDigits _ hm hbound (k := 2) (by decide)⟩, fun hout => absurd hin (Nat.not_le.2 hout)⟩
  · exact ⟨fun hin => absurd hin (Nat.not_le.2 hout), fun _ => hfault⟩

/-- Settles O25: the two cases of register-dump are the two sides of the bound. -/
theorem dumpStoresRegisters : Obligations.DumpStoresRegisters := by
  intro s x hm
  obtain ⟨hin, hdump⟩ | ⟨hout, hfault⟩ := execDump_cases s x
  · exact ⟨fun hbound => ⟨_, hdump, changesOnlyBytes_storeBytes s _ (dumpBytes_length s x),
      fun _ hk => byteAt_storeBytes_dumpBytes hm hbound hk⟩, fun hout => absurd hin (Nat.not_le.2 hout)⟩
  · exact ⟨fun hin => absurd hin (Nat.not_le.2 hout), fun _ => hfault⟩

/-! ## Loads -/

theorem changesOnlyRegs_loadRegs (s : State) (base : Nat) (x : Reg) : ChangesOnlyRegs s (loadRegs s base x) := by
  refine ⟨loadRegs_eq s base x, fun a => ?_⟩
  rw [loadRegs_eq]
  rfl

/-- Settles O26: the two cases of register-load are the two sides of the bound. -/
theorem loadReadsRegisters : Obligations.LoadReadsRegisters := by
  intro s x
  obtain ⟨hin, hload⟩ | ⟨hout, hfault⟩ := execLoad_cases s x
  · refine ⟨fun _ => ⟨_, hload, changesOnlyRegs_loadRegs s _ x, fun k hk => ?_, fun k hk => ?_⟩,
      fun hout => absurd hin (Nat.not_le.2 hout)⟩
    · exact (loadRegs_reg s _ x k).trans (if_pos hk)
    · exact (loadRegs_reg s _ x k).trans (if_neg (Nat.not_le.2 hk))
  · exact ⟨fun hin => absurd hin (Nat.not_le.2 hout), fun _ => hfault⟩

end Sys2Proof.Machine
end

section
/-! SUPPORT. The display (spec/43_display.md R190 to R199): the state a completed draw leaves and its fields, the pixels of glyph 0,
and the read-out of a row-major grid. -/

namespace Sys2Proof.Machine

variable {s t : State}

/-! ## Clear-screen -/

theorem changesOnlyFrameRegs_clear (s : State) : ChangesOnlyFrameRegs s { s with fb := Frame.clear } :=
  ⟨rfl, fun _ => rfl⟩

/-- Settles O28: the arm answers the state with the clear frame buffer, each of whose pixels is off. -/
theorem clearScreenClearsEveryPixel : Obligations.ClearScreenClearsEveryPixel := fun s =>
  ⟨_, rfl, Frame.get_clear, changesOnlyFrameRegs_clear s, rfl⟩

/-! ## The read-out -/

/-- Where every row of a grid has `w` entries, entry `c` of row `r` stands at `w * r + c` of the flattened grid. -/
theorem getElem?_flatten_of_length_eq {α : Type} {w c : Nat} (hc : c < w) (rows : List (List α))
    (hw : ∀ row ∈ rows, row.length = w) (r : Nat) : rows.flatten[w * r + c]? = rows[r]?.bind (·[c]?) := by
  induction rows generalizing r with
  | nil => rfl
  | cons row rows ih =>
    have hrow : row.length = w := hw row List.mem_cons_self
    rw [List.flatten_cons]
    cases r with
    | zero => rw [List.getElem?_append_left (by omega), Nat.mul_zero, Nat.zero_add]; rfl
    | succ r =>
      have hskip : w * (r + 1) + c - row.length = w * r + c := by rw [Nat.mul_succ]; omega
      rw [List.getElem?_append_right (by rw [Nat.mul_succ]; omega), hskip,
        ih (fun row' hmem => hw row' (List.mem_cons_of_mem _ hmem)), List.getElem?_cons_succ]

/-- The bytes of one row of the read-out. -/
def rowBytes (row : BitVec 64) : List Byte := (List.range 64).map fun x => flagByte (row.getLsbD x)

theorem Frame.pixels_eq (fb : Frame) : fb.pixels = (fb.toList.map rowBytes).flatten := rfl

theorem rowBytes_length (row : BitVec 64) : (rowBytes row).length = 64 := by
  rw [rowBytes, List.length_map, List.length_range]

theorem Frame.pixels_length (fb : Frame) : fb.pixels.length = 2048 := by
  have hlengths : (fb.toList.map rowBytes).map List.length = List.replicate 32 64 := by
    rw [List.map_map, List.eq_replicate_iff]
    simp [rowBytes_length]
  rw [Frame.pixels_eq, List.length_flatten, hlengths]
  rfl

theorem Frame.pixels_getElem? (fb : Frame) (px : Fin 64) (py : Fin 32) :
    fb.pixels[64 * py.val + px.val]? = some (flagByte (fb.get px py)) := by
  have hw : ∀ row ∈ fb.toList.map rowBytes, row.length = 64 := by simp [rowBytes_length]
  rw [Frame.pixels_eq, getElem?_flatten_of_length_eq px.isLt _ hw]
  simp [rowBytes, Frame.get]

/-- Of the environment's events, a tick moves timers and a press or release moves a key (R193, R211, R222). -/
theorem applyEvent_keeps_fb {e : Event} (he : e = .tick ∨ ∃ k, e = .press k ∨ e = .release k)
    (h : applyEvent e s = .next t) : t.fb = s.fb := by
  obtain rfl | ⟨k, rfl | rfl⟩ := he <;> cases h <;> rfl

/-- Settles O31: the read-out is a flattened grid of 32 rows of 64, and the event on the schedule is the one that acts. -/
theorem readOutIsRowMajor : Obligations.ReadOutIsRowMajor := by
  refine ⟨fun fb px py => ⟨fb.pixels_length, fb.pixels_getElem? px py⟩, fun s t e rest hsched he h => ?_⟩
  exact applyEvent_keeps_fb (s := { s with schedule := rest }) he ((step_of_schedule_cons hsched).symm.trans h)

/-! ## The state a completed draw leaves -/

/-- `s` after a completed draw: the frame buffer drawn on, and the collision flag in VF (R196). -/
def drawn (s : State) (x y : Reg) (n : Nat) : State :=
  ({ s with fb := (drawing s x y n).1 } : State).setReg vf (flagByte (drawing s x y n).2)

theorem exec_drw_of_inBounds (x y : Reg) {n : Nat} (hin : n = 0 ∨ s.i.toNat + n - 1 ≤ 4095) :
    exec (.drw x y n) s = .next (drawn s x y n) := by
  obtain ⟨_, hdraw⟩ | ⟨_, _, _⟩ := execDrw_cases s x y n
  · exact hdraw
  · omega

theorem exec_drw_of_outOfBounds (x y : Reg) {n : Nat} (hn : 1 ≤ n) (hout : 4095 < s.i.toNat + n - 1) :
    exec (.drw x y n) s = .next (latched s .addressOutOfBounds) := by
  obtain ⟨_, _⟩ | ⟨_, _, hfault⟩ := execDrw_cases s x y n
  · omega
  · exact hfault

section
variable (s : State) (x y : Reg) (n : Nat)

theorem changesOnlyFrameRegs_drawn : ChangesOnlyFrameRegs s (drawn s x y n) := ⟨rfl, fun _ => rfl⟩

/-- Each pixel after a draw is XORed with the sprite's bit there. -/
theorem drawn_get (px : Fin 64) (py : Fin 32) :
    (drawn s x y n).fb.get px py =
      (s.fb.get px py ^^ spriteBit s ((s.reg x).toNat % 64) ((s.reg y).toNat % 32) n px py) :=
  drawing_get s x y n px py

theorem drawn_reg_vf : (drawn s x y n).reg 15 = flagByte (drawing s x y n).2 := by simp [drawn, vf]

theorem drawn_reg_of_ne {k : Reg} (hk : k ≠ 15) : (drawn s x y n).reg k = s.reg k :=
  (State.reg_setReg _ _ _ _).trans (if_neg hk)

/-- A draw writes neither I nor Memory, so that it leaves the sprite as it is. -/
theorem spriteBit_drawn (ox oy m : Nat) : spriteBit (drawn s x y n) ox oy m = spriteBit s ox oy m := rfl

end

theorem flagByte_eq_one_iff (flag : Bool) : flagByte flag = 1 ↔ flag = true := by cases flag <;> decide

variable {x y : Reg} {n : Nat}

/-- The collision flag: a pixel that was on goes off exactly where the sprite has a 1 bit (R199 (b)). -/
theorem drawn_vf_eq_one_iff :
    (drawn s x y n).reg 15 = 1 ↔ ∃ px py, s.fb.get px py = true ∧ (drawn s x y n).fb.get px py = false := by
  rw [drawn_reg_vf, flagByte_eq_one_iff, drawing_hit]
  refine exists_congr fun px => exists_congr fun py => and_congr_right fun hon => ?_
  rw [drawn_get, hon, Bool.true_xor, Bool.not_eq_false']

theorem drawn_vf_eq_zero (hkeep : ∀ px py, s.fb.get px py = true → (drawn s x y n).fb.get px py = true) :
    (drawn s x y n).reg 15 = 0 := by
  obtain hzero | hone := flagByte_eq_zero_or_one (drawing s x y n).2
  · exact (drawn_reg_vf s x y n).trans hzero
  · obtain ⟨px, py, hon, hoff⟩ := drawn_vf_eq_one_iff.1 ((drawn_reg_vf s x y n).trans hone)
    exact absurd (hkeep px py hon) (Bool.eq_false_iff.1 hoff)

/-- Settles O29: a draw in bounds leaves `drawn`, whose pixels, flag and other registers are lemmas. -/
theorem drawXorsClippedSprite : Obligations.DrawXorsClippedSprite := by
  rintro s x y n _ _ rfl rfl
  exact ⟨fun hin => ⟨_, exec_drw_of_inBounds x y hin, changesOnlyFrameRegs_drawn s x y n, drawn_get s x y n,
    drawn_vf_eq_one_iff.2, drawn_vf_eq_zero, fun _ => drawn_reg_of_ne s x y n⟩, exec_drw_of_outOfBounds x y⟩

/-! ## The source's properties of draw -/

/-- XOR idempotence: unless an origin coordinate is VF, which the first draw writes, the second flips the same pixels back. -/
theorem drawn_drawn_fb (hx : x ≠ 15) (hy : y ≠ 15) : (drawn (drawn s x y n) x y n).fb = s.fb := by
  refine Frame.ext_get fun px py => ?_
  rw [drawn_get, drawn_get, drawn_reg_of_ne _ _ _ _ hx, drawn_reg_of_ne _ _ _ _ hy, spriteBit_drawn, Bool.xor_assoc,
    Bool.xor_self, Bool.xor_false]

theorem exec_drw_twice {u : State} (hx : x ≠ 15) (hy : y ≠ 15) (hst : exec (.drw x y n) s = .next t)
    (htu : exec (.drw x y n) t = .next u) :
    u.fb = s.fb ∧ ((∃ px py, s.fb.get px py = false ∧ t.fb.get px py = true) → u.reg 15 = 1) := by
  by_cases hin : n = 0 ∨ s.i.toNat + n - 1 ≤ 4095
  · cases (exec_drw_of_inBounds x y hin).symm.trans hst
    cases (exec_drw_of_inBounds (s := drawn s x y n) x y hin).symm.trans htu
    have hfb := drawn_drawn_fb (s := s) (n := n) hx hy
    refine ⟨hfb, fun ⟨px, py, hoff, hon⟩ => drawn_vf_eq_one_iff.2 ⟨px, py, hon, ?_⟩⟩
    rw [hfb, hoff]
  · have hn : 1 ≤ n := by omega
    have hout : 4095 < s.i.toNat + n - 1 := by omega
    cases (exec_drw_of_outOfBounds x y hn hout).symm.trans hst
    cases (exec_drw_of_outOfBounds (s := latched s .addressOutOfBounds) x y hn hout).symm.trans htu
    exact ⟨rfl, fun ⟨px, py, hoff, hon⟩ => absurd hon (Bool.eq_false_iff.1 hoff)⟩

/-- A draw that latched nothing completed. -/
theorem eq_drawn_of_exec_drw (h : exec (.drw x y n) s = .next t) (ht : t.running) : t = drawn s x y n := by
  obtain ⟨_, hdraw⟩ | ⟨_, _, hfault⟩ := execDrw_cases s x y n
  · exact Host.Outcome.next.inj (h.symm.trans hdraw)
  · cases h.symm.trans hfault
    exact nomatch ht

/-- The five bytes of glyph 0 (spec/20_memory.md R68). -/
def glyphZero : List Byte := [0xF0, 0x90, 0x90, 0x90, 0xF0]

/-- The fourteen pixels of R199 (c). -/
def glyphZeroPixels : List (Nat × Nat) :=
  [(0, 0), (1, 0), (2, 0), (3, 0), (0, 1), (3, 1), (0, 2), (3, 2), (0, 3), (3, 3), (0, 4), (1, 4), (2, 4), (3, 4)]

/-- Glyph 0 at the origin: inside its 8 columns and 5 rows its pixels are compared one by one, outside there are none. -/
theorem rowsBit_glyphZero_iff (px : Fin 64) (py : Fin 32) :
    rowsBit 0 0 glyphZero px py = true ↔ (px.val, py.val) ∈ glyphZeroPixels := by
  by_cases hbox : px.val < 8 ∧ py.val < 5
  · have hpixels : ∀ (c : Fin 8) (r : Fin 5),
        rowsBit 0 0 glyphZero (c.castLE (by decide)) (r.castLE (by decide)) = true ↔ (c.val, r.val) ∈ glyphZeroPixels := by
      decide
    exact hpixels ⟨px.val, hbox.1⟩ ⟨py.val, hbox.2⟩
  · have hlisted : ∀ p ∈ glyphZeroPixels, p.1 < 8 ∧ p.2 < 5 := by decide
    refine iff_of_false (fun hbit => ?_) fun hmem => hbox (hlisted _ hmem)
    have hrange := (Bool.and_eq_true_iff.1 hbit).1
    obtain ⟨_, hcolumn, _, hrow⟩ := of_decide_eq_true hrange
    rw [Nat.zero_add] at hcolumn hrow
    exact hbox ⟨hcolumn, hrow⟩

/-- The pixels of a sprite drawn at the origin of a clear screen are those of its bytes. -/
theorem drawn_get_of_clear_of_origin (hclear : s.fb = Frame.clear) (hx : s.reg x = 0) (hy : s.reg y = 0) (px : Fin 64)
    (py : Fin 32) : (drawn s x y n).fb.get px py = rowsBit 0 0 (s.bytesAt (s.indexAddr 0) n) px py := by
  rw [drawn_get, hclear, hx, hy, Frame.get_clear, Bool.false_xor, rowsBit_bytesAt]
  rfl

theorem exec_drw_glyphZero (hclear : s.fb = Frame.clear) (hx : s.reg x = 0) (hy : s.reg y = 0)
    (hin : s.i.toNat + 4 ≤ 4095) (hglyph : s.bytesAt (s.indexAddr 0) 5 = glyphZero) :
    ∃ t, exec (.drw x y 5) s = .next t ∧ t.reg 15 = 0 ∧
      ∀ px py, t.fb.get px py = true ↔ (px.val, py.val) ∈ glyphZeroPixels := by
  refine ⟨_, exec_drw_of_inBounds x y (.inr hin), drawn_vf_eq_zero fun px py hon => ?_, fun px py => ?_⟩
  · rw [hclear, Frame.get_clear] at hon
    exact nomatch hon
  · rw [drawn_get_of_clear_of_origin hclear hx hy, hglyph, rowsBit_glyphZero_iff]

/-- Settles O30: the two draws flip the same pixels, the flag is the collision flag, and glyph 0 is its pixels on a clear screen. -/
theorem drawTwiceRestoresAndGlyphZero : Obligations.DrawTwiceRestoresAndGlyphZero := by
  refine ⟨fun s t u x y n hx hy hst htu => exec_drw_twice hx hy hst htu, fun s t x y n _ h ht => ?_,
    fun s x y hclear hx hy hin hglyph => exec_drw_glyphZero hclear hx hy hin hglyph⟩
  rw [eq_drawn_of_exec_drw h ht]
  exact drawn_vf_eq_one_iff

end Sys2Proof.Machine
end

section
/-! SUPPORT. The keypad and the timers (spec/44_keypad_timers.md R211 to R222): the two answers of wait-for-key and its
busy-wait, the tick, a key read after a key event, and what keeps the keypad. -/

namespace Sys2Proof.Machine

variable {s t : State}

/-! ## Wait-for-key -/

theorem exec_ldVxK_of_lowest {key : Key} (x : Reg) (hdown : s.keyPressed key = true)
    (hlowest : ∀ j, j < key → s.keyPressed j = false) :
    exec (.ldVxK x) s = .next (s.setReg x (BitVec.ofNat 8 key.val)) := by
  obtain ⟨hup, _⟩ | ⟨k, hk, hklowest, hstore⟩ := execLdVxK_cases s x
  · exact absurd hdown (Bool.eq_false_iff.1 (hup key))
  · have hge : ¬ k < key := fun hlt => Bool.eq_false_iff.1 (hlowest k hlt) hk
    have hle : ¬ key < k := fun hlt => Bool.eq_false_iff.1 (hklowest key hlt) hdown
    rw [le_antisymm (not_lt.1 hge) (not_lt.1 hle)]
    exact hstore

theorem exec_ldVxK_of_all_up (x : Reg) (hup : ∀ key, s.keyPressed key = false) :
    exec (.ldVxK x) s = .next (s.setPc (s.pc - 2)) := by
  obtain ⟨_, hrewind⟩ | ⟨k, hk, _, _⟩ := execLdVxK_cases s x
  · exact hrewind
  · exact absurd hk (Bool.eq_false_iff.1 (hup k))

/-- The number of a key fits a register. -/
theorem keyByte_toNat (key : Key) : (BitVec.ofNat 8 key.val).toNat = key.val :=
  (BitVec.toNat_ofNat key.val 8).trans (Nat.mod_eq_of_lt (key.isLt.trans (by decide)))

theorem State.setPc_add_two_sub_two (s : State) : (s.setPc (s.pc + 2)).setPc (s.pc + 2 - 2) = s := by
  rw [BitVec.add_sub_cancel]
  rfl

/-- The busy-wait: the rewind undoes the fetch's advance of PC, and nothing else was written. -/
theorem instructionCycle_of_waiting {w : Word} {x : Reg} (hrun : s.running) (hpc : s.pc.toNat ≤ 4094)
    (hw : s.wordAtPc w) (hdecode : decodeWord w = .ok (.ldVxK x)) (hup : ∀ key, s.keyPressed key = false) :
    instructionCycle s = .next s := by
  calc instructionCycle s
      = execWord w (s.setPc (s.pc + 2)) := instructionCycle_of_wordAtPc hrun hpc hw
    _ = exec (.ldVxK x) (s.setPc (s.pc + 2)) := execWord_of_decodeWord hdecode
    _ = .next ((s.setPc (s.pc + 2)).setPc (s.pc + 2 - 2)) := exec_ldVxK_of_all_up x hup
    _ = .next s := by rw [State.setPc_add_two_sub_two]

/-- Settles O33: the two answers are the two guards of wait-for-key, and the step runs the waiting cycle on `s` but for
its schedule. -/
theorem waitForKeyStoresLowestOrRewinds : Obligations.WaitForKeyStoresLowestOrRewinds := by
  refine ⟨fun s x => ⟨fun key hdown hlowest => ?_, fun hup => ?_⟩,
    fun s s' w x hnext hrun hpc hw hdecode hup => ?_⟩
  · exact ⟨_, exec_ldVxK_of_lowest x hdown hlowest, setsRegister_setReg s x (keyByte_toNat key)⟩
  · exact ⟨_, exec_ldVxK_of_all_up x hup, rfl, changesOnlyPc_setPc s _⟩
  · rw [step_of_stepNext hnext, stepNext_eq hnext]
    exact instructionCycle_of_waiting (s := { s with schedule := s'.schedule }) hrun hpc hw hdecode hup

/-! ## The tick -/

theorem State.tick_st_of_gated (hgated : s.cfg.soundGated = true) (hdt : s.dt = 0) : s.tick.st = s.st := by
  simp [hgated, hdt]

theorem State.tick_st_of_ungated (h : s.cfg.soundGated = false ∨ s.dt ≠ 0) : s.tick.st = decrement s.st := by
  obtain hoff | hdt := h
  · rw [State.tick_st, hoff, Bool.false_and, if_neg Bool.false_ne_true]
  · rw [State.tick_st, decide_eq_false hdt, Bool.and_false, if_neg Bool.false_ne_true]

/-- Settles O35: each timer is left alone or is its `decrement`, which is truncated subtraction. -/
theorem tickCountsDown : Obligations.TickCountsDown := by
  intro s rest hsched
  refine ⟨_, step_of_schedule_cons hsched, rfl, decrement_toNat s.dt,
    fun ⟨hgated, hdt⟩ => ?_, fun hungated => ?_⟩
  · exact State.tick_st_of_gated (s := { s with schedule := rest }) hgated hdt
  · rw [State.tick_st_of_ungated (s := { s with schedule := rest }) hungated]
    exact decrement_toNat s.st

/-! ## The keypad -/

/-- A key read after a key event. -/
@[simp] theorem State.keyPressed_setKey (s : State) (j k : Key) (down : Bool) :
    (s.setKey k down).keyPressed j = if j = k then down else s.keyPressed j := by
  simp [State.keyPressed, State.setKey, Vector.getElem_set, Fin.ext_iff, eq_comm]

theorem State.keyPressed_setKey_same (s : State) (k : Key) (down : Bool) : (s.setKey k down).keyPressed k = down :=
  (s.keyPressed_setKey k k down).trans (if_pos rfl)

theorem State.keyPressed_setKey_of_ne (s : State) {j k : Key} (hj : j ≠ k) (down : Bool) :
    (s.setKey k down).keyPressed j = s.keyPressed j :=
  (s.keyPressed_setKey j k down).trans (if_neg hj)

/-- Settles O36: both events are `setKey`, after the event is taken off the schedule. -/
theorem pressAndReleaseSetKeys : Obligations.PressAndReleaseSetKeys := fun _ _ k =>
  ⟨fun hsched => ⟨_, step_of_schedule_cons hsched, rfl, State.keyPressed_setKey_same _ k true,
      fun _ hj => State.keyPressed_setKey_of_ne _ hj true⟩,
    fun hsched => ⟨_, step_of_schedule_cons hsched, rfl, State.keyPressed_setKey_same _ k false,
      fun _ hj => State.keyPressed_setKey_of_ne _ hj false⟩⟩

theorem execWord_keeps_keys {w : Word} (h : execWord w s = .next t) : t.keys = s.keys := by
  obtain ⟨i, _, hw⟩ | ⟨_, _, hw⟩ := execWord_cases w s
  · obtain ⟨hkeys, _⟩ := (effect_of_exec (hw.symm.trans h)).keeps
    exact hkeys
  · cases hw.symm.trans h
    rfl

theorem instructionCycle_keeps_keys (h : instructionCycle s = .next t) : t.keys = s.keys := by
  obtain ⟨_, hc⟩ | ⟨_, _, hc⟩ | ⟨_, _, hc⟩ := instructionCycle_cases s
  · cases hc.symm.trans h
    rfl
  · cases hc.symm.trans h
    rfl
  · exact execWord_keeps_keys (s := s.setPc (s.pc + 2)) (hc.symm.trans h)

theorem State.keyPressed_congr (h : t.keys = s.keys) (k : Key) : t.keyPressed k = s.keyPressed k := by
  rw [State.keyPressed, h, State.keyPressed]

theorem State.eq_of_keyPressed_setKey_ne {j k : Key} {down : Bool}
    (hne : (s.setKey j down).keyPressed k ≠ s.keyPressed k) : k = j :=
  by_contra fun h => hne (s.keyPressed_setKey_of_ne h down)

/-- The events that can change a key: its own press and release, and a Reset. -/
theorem applyEvent_changes_key {e : Event} {k : Key} (h : applyEvent e s = .next t)
    (hne : t.keyPressed k ≠ s.keyPressed k) : e = .press k ∨ e = .release k ∨ ∃ rom, e = .reset rom := by
  cases e with
  | reset rom => exact .inr (.inr ⟨rom, rfl⟩)
  | step => exact absurd (State.keyPressed_congr (instructionCycle_keeps_keys h) k) hne
  | tick =>
    cases h
    exact absurd rfl hne
  | press j =>
    cases h
    exact .inl (congrArg Event.press (State.eq_of_keyPressed_setKey_ne hne).symm)
  | release j =>
    cases h
    exact .inr (.inl (congrArg Event.release (State.eq_of_keyPressed_setKey_ne hne).symm))

/-- Settles O37: with nothing scheduled the step is an instruction cycle, which keeps the keypad; otherwise it is the
event. -/
theorem keysChangeOnlyByEvents : Obligations.KeysChangeOnlyByEvents := by
  intro s t k h hne
  obtain ⟨_, hstep⟩ | ⟨e, rest, hsched, hstep⟩ := step_cases s
  · exact absurd (State.keyPressed_congr (instructionCycle_keeps_keys (hstep.symm.trans h)) k) hne
  · exact ⟨e, rest, hsched, applyEvent_changes_key (s := { s with schedule := rest }) (hstep.symm.trans h) hne⟩

/-! ## Key skips and timer moves -/

/-- Settles O32: both are `skipIf` of the state of the key that the low 4 bits of Vx number. -/
theorem keySkips : Obligations.KeySkips := by
  intro s x key hkey
  obtain rfl : key = lowNibble (s.reg x) := Fin.ext (hkey.trans (lowNibble_val (s.reg x)).symm)
  exact ⟨⟨_, rfl, skipsWhen_skipIf s Iff.rfl⟩, ⟨_, rfl, skipsWhen_skipIf s (by rw [Bool.not_eq_true'])⟩⟩

/-- The sound output is on exactly while the sound timer is nonzero (spec/00_scope.md R11). -/
theorem State.soundActive_iff (s : State) : s.soundActive = true ↔ s.st ≠ 0 := decide_eq_true_iff

/-- Settles O34: the three moves are single writes, and the output level follows the new ST. -/
theorem timerMoves : Obligations.TimerMoves := fun s x =>
  ⟨⟨_, rfl, setsRegister_setReg s x rfl⟩, rfl, ⟨_, rfl, rfl, State.soundActive_iff _⟩⟩

end Sys2Proof.Machine
end

section
/-! SUPPORT. The fault sites (spec/60_exceptions.md R233 to R235): where an execute phase latches a code, said once for all
instructions and read in both directions. -/

namespace Sys2Proof.Machine

variable {s t : State} {i : Instr} {f : Fault}

/-- The instruction, executed in `s`, meets the condition under which it raises `f` (R233 to R235). -/
inductive FaultSite (s : State) : Instr → Fault → Prop
  | ret (hempty : s.stack = []) : FaultSite s .ret .stackUnderflow
  | call (nnn : Addr12) (hlimit : s.cfg.stackLimit = some s.stack.length) : FaultSite s (.call nnn) .stackOverflow
  | ldB (x : Reg) (hout : 4095 < s.i.toNat + 2) : FaultSite s (.ldB x) .addressOutOfBounds
  | dump (x : Reg) (hout : 4095 < s.i.toNat + x.val) : FaultSite s (.dump x) .addressOutOfBounds
  | load (x : Reg) (hout : 4095 < s.i.toNat + x.val) : FaultSite s (.load x) .addressOutOfBounds
  | drw (x y : Reg) (n : Nat) (hn : 1 ≤ n) (hout : 4095 < s.i.toNat + n - 1) :
      FaultSite s (.drw x y n) .addressOutOfBounds

/-- At a fault site the code is latched and nothing else changes (R232). -/
theorem FaultSite.exec_eq (hsite : FaultSite s i f) : exec i s = .next (latched s f) := by
  cases hsite with
  | ret hempty => exact exec_ret_of_nil hempty
  | call nnn hlimit => exact (callPushesPc s nnn).2 hlimit
  | ldB x hout =>
    obtain ⟨hin, _⟩ | ⟨_, hfault⟩ := execLdB_cases s x
    · exact absurd hin (Nat.not_le.2 hout)
    · exact hfault
  | dump x hout =>
    obtain ⟨hin, _⟩ | ⟨_, hfault⟩ := execDump_cases s x
    · exact absurd hin (Nat.not_le.2 hout)
    · exact hfault
  | load x hout => exact (loadReadsRegisters s x).2 hout
  | drw x y n hn hout => exact exec_drw_of_outOfBounds x y hn hout

/-- An execute phase keeps ERR, or it is at a fault site: each instruction that can fault has its condition or completes. -/
theorem exec_keeps_err_or_faultSite (i : Instr) (s : State) :
    ∃ t, exec i s = .next t ∧ (t.err = s.err ∨ ∃ f, FaultSite s i f ∧ t = latched s f) := by
  cases i with
  | ret =>
    obtain ⟨hempty, h⟩ | ⟨_, _, _, h⟩ := execRet_cases s
    · exact ⟨_, h, .inr ⟨_, .ret hempty, rfl⟩⟩
    · exact ⟨_, h, .inl rfl⟩
  | call nnn =>
    obtain ⟨hlimit, h⟩ | ⟨_, h⟩ := execCall_cases s nnn
    · exact ⟨_, h, .inr ⟨_, .call nnn hlimit, rfl⟩⟩
    · exact ⟨_, h, .inl rfl⟩
  | ldB x =>
    obtain ⟨_, h⟩ | ⟨hout, h⟩ := execLdB_cases s x
    · exact ⟨_, h, .inl rfl⟩
    · exact ⟨_, h, .inr ⟨_, .ldB x hout, rfl⟩⟩
  | dump x =>
    obtain ⟨_, h⟩ | ⟨hout, h⟩ := execDump_cases s x
    · exact ⟨_, h, .inl rfl⟩
    · exact ⟨_, h, .inr ⟨_, .dump x hout, rfl⟩⟩
  | load x =>
    obtain ⟨_, h⟩ | ⟨hout, h⟩ := execLoad_cases s x
    · exact ⟨_, h, .inl (by rw [loadRegs_eq])⟩
    · exact ⟨_, h, .inr ⟨_, .load x hout, rfl⟩⟩
  | drw x y n =>
    obtain ⟨_, h⟩ | ⟨hn, hout, h⟩ := execDrw_cases s x y n
    · exact ⟨_, h, .inl rfl⟩
    · exact ⟨_, h, .inr ⟨_, .drw x y n hn hout, rfl⟩⟩
  | _ =>
    obtain ⟨t, h, he⟩ := exec_effect _ s
    exact ⟨t, h, .inl (by_contra fun hne => by simpa [CanFault] using he.writes_err hne)⟩

/-- Only a fault site leaves a running machine with a code. -/
theorem faultSite_of_exec (hrun : s.running) (h : exec i s = .next t) (hf : t.err = some f) : FaultSite s i f := by
  obtain ⟨t', h', hcase⟩ := exec_keeps_err_or_faultSite i s
  cases h.symm.trans h'
  obtain hkeep | ⟨g, hsite, rfl⟩ := hcase
  · exact nomatch hf.symm.trans (hkeep.trans hrun)
  · exact Option.some.inj hf ▸ hsite

/-- Settles O10: the fetch fault is a clause of O6; the four accesses are the fault sites with this code. -/
theorem addressOutOfBoundsSites : Obligations.AddressOutOfBoundsSites := by
  refine ⟨fun s s' hnext => ?_, fun s x hout => (FaultSite.ldB x hout).exec_eq,
    fun s x hout => (FaultSite.dump x hout).exec_eq, fun s x hout => (FaultSite.load x hout).exec_eq,
    fun s x y n hn hout => (FaultSite.drw x y n hn hout).exec_eq, fun i s t hrun h herr => ?_⟩
  · obtain ⟨_, hfetch, _⟩ := stepRunsDecodedInstruction s s' 0 hnext
    exact hfetch
  · cases faultSite_of_exec hrun h herr with
    | ldB x hout => exact .inl ⟨x, rfl, hout⟩
    | dump x hout => exact .inr (.inl ⟨x, rfl, hout⟩)
    | load x hout => exact .inr (.inr (.inl ⟨x, rfl, hout⟩))
    | drw x y n hn hout => exact .inr (.inr (.inr ⟨x, y, n, rfl, hn, hout⟩))

/-- Settles O11: return and call are the only fault sites with these codes. -/
theorem stackFaultSites : Obligations.StackFaultSites := by
  refine ⟨fun s hempty => (FaultSite.ret hempty).exec_eq, fun s nnn hlimit => (FaultSite.call nnn hlimit).exec_eq,
    fun i s t hrun h => ⟨fun herr => ?_, fun herr => ?_⟩⟩
  · cases faultSite_of_exec hrun h herr with
    | ret hempty => exact ⟨rfl, hempty⟩
  · cases faultSite_of_exec hrun h herr with
    | call nnn hlimit => exact ⟨⟨nnn, rfl⟩, hlimit⟩

end Sys2Proof.Machine
end

section
/-! SUPPORT. Reset and the self-jump (spec/70_reset_and_hazards.md R260, R272): the reset contents of Memory (R33, R67), the two
states a Reset can leave and their bytes, and the cycle of a jump to its own address. -/

namespace Sys2Proof.Machine

variable {s : State}

/-! ## The reset contents -/

/-- R6 keeps the font below the program base. -/
theorem Config.fontBase_le_of_wf {cfg : Config} (hcfg : cfg.wf = true) : cfg.fontBase + 80 ≤ 0x200 := by
  obtain ⟨hfont, _⟩ : cfg.fontBase + 80 ≤ 0x200 ∧ cfg.stackLimit ≠ some 0 := by simpa [Config.wf] using hcfg
  exact hfont

theorem Memory.initial_outside_font {cfg : Config} {a : Nat} (h : a < cfg.fontBase ∨ cfg.fontBase + 80 ≤ a) :
    Memory.initial cfg a = 0 :=
  if_neg fun hfont => by omega

theorem Memory.initial_from_progBase {cfg : Config} (hcfg : cfg.wf = true) {a : Nat} (ha : 0x200 ≤ a) :
    Memory.initial cfg a = 0 :=
  Memory.initial_outside_font (.inr ((Config.fontBase_le_of_wf hcfg).trans ha))

/-- Row r of glyph d is byte 5 * d + r of the font. -/
theorem fontBytes_getElem? (d : Nat) {r : Nat} (hr : r < 5) :
    fontBytes[5 * d + r]? = fontGlyphs[d]?.bind (·[r]?) :=
  getElem?_flatten_of_length_eq hr fontGlyphs (by decide) d

theorem Memory.initial_glyph (cfg : Config) {d r : Nat} (hd : d < 16) (hr : r < 5) :
    some (Memory.initial cfg (cfg.fontBase + 5 * d + r)) = fontGlyphs[d]?.bind (·[r]?) := by
  have hlt : 5 * d + r < fontBytes.length := Nat.lt_of_lt_of_eq (by omega : 5 * d + r < 80) rfl
  have hoffset : cfg.fontBase + 5 * d + r - cfg.fontBase = 5 * d + r := by omega
  rw [← fontBytes_getElem? d hr, List.getElem?_eq_getElem hlt, Memory.initial, if_pos (by omega), hoffset,
    ← List.getElem_eq_getD]

/-! ## The states a Reset can leave -/

/-- What a Reset leaves before the ROM is looked at: the reset state, with the fields that are not the machine's kept. -/
def State.cleared (s : State) : State :=
  { State.reset with
    cfg := s.cfg, schedule := s.schedule, rndSupply := s.rndSupply, rndCount := s.rndCount, reports := s.reports }

theorem State.byteAt_cleared (s : State) (a : Nat) : s.cleared.byteAt a = Memory.initial s.cfg a := rfl

theorem State.afterReset_of_fits {rom : List Byte} (h : rom.length ≤ 3584) :
    s.afterReset rom = s.cleared.storeBytes 0x200 rom :=
  if_pos h

theorem State.afterReset_of_too_large {rom : List Byte} (h : 3584 < rom.length) :
    s.afterReset rom = latched s.cleared .romTooLarge :=
  if_neg (Nat.not_le.2 h)

theorem State.afterReset_eq (s : State) (rom : List Byte) :
    s.afterReset rom = { s.cleared with mem := (s.afterReset rom).mem, err := (s.afterReset rom).err } := by
  obtain hfit | hlarge := le_or_gt rom.length 3584
  · rw [State.afterReset_of_fits hfit]
    rfl
  · rw [State.afterReset_of_too_large hlarge]
    rfl

/-- Where no ROM byte is stored, a byte has its reset contents. -/
theorem State.byteAt_afterReset_outside_rom {rom : List Byte} {a : Nat}
    (h : a < 0x200 ∨ 0x200 + rom.length ≤ a ∨ 3584 < rom.length) :
    (s.afterReset rom).byteAt a = Memory.initial s.cfg a := by
  obtain hfit | hlarge := le_or_gt rom.length 3584
  · rw [State.afterReset_of_fits hfit, State.byteAt_storeBytes_outside (by omega), State.byteAt_cleared]
  · rw [State.afterReset_of_too_large hlarge]
    exact s.byteAt_cleared a

/-- A ROM that fits ends at the last address of Memory at most, so that all of it is stored. -/
theorem State.byteAt_afterReset_rom {rom : List Byte} (hfit : rom.length ≤ 3584) {k : Nat} (hk : k < rom.length) :
    (s.afterReset rom).byteAt (0x200 + k) = rom[k] := by
  rw [State.afterReset_of_fits hfit]
  exact State.byteAt_storeBytes_inside (by omega) Memory.wf_nil hk

/-- Settles O38: the step is `afterReset` of `s` without the event; outside the ROM its bytes are the reset contents, and from
0x200 on there is no font. -/
theorem resetEventLoadsRom : Obligations.ResetEventLoadsRom := by
  intro s rom rest hcfg hsched
  have hfont := Config.fontBase_le_of_wf hcfg
  refine ⟨_, step_of_schedule_cons hsched, State.afterReset_eq _ rom, fun d r hd hr => ?_, fun a ha hout => ?_,
    fun hfit => ⟨?_, fun k hk => State.byteAt_afterReset_rom hfit hk, fun a ha => ?_⟩, fun hlarge => ⟨?_, fun a ha => ?_⟩⟩
  · have hbelow : s.cfg.fontBase + 5 * d + r < 0x200 := by omega
    rw [State.byteAt_afterReset_outside_rom (.inl hbelow)]
    exact Memory.initial_glyph s.cfg hd hr
  · rw [State.byteAt_afterReset_outside_rom (.inl ha)]
    exact Memory.initial_outside_font hout
  · rw [State.afterReset_of_fits hfit]
    rfl
  · rw [State.byteAt_afterReset_outside_rom (.inr (.inl ha))]
    exact Memory.initial_from_progBase hcfg (by omega)
  · rw [State.afterReset_of_too_large hlarge]
    rfl
  · rw [State.byteAt_afterReset_outside_rom (.inr (.inr hlarge))]
    exact Memory.initial_from_progBase hcfg ha

/-! ## The self-jump -/

theorem decodeWord_of_family_one {w : Word} (h : fieldFamily w = 1) : decodeWord w = .ok (.jp (fieldNNN w)) :=
  decodeWord_of_encodeWord rfl (formatA_fields h)

/-- The jump undoes the fetch's advance of PC, and neither writes anything else. -/
theorem instructionCycle_of_selfJump {w : Word} (hrun : s.running) (hword : s.wordAtPc w) (hpc : s.pc.toNat < 4095)
    (hself : w.toNat = 0x1000 + s.pc.toNat) : instructionCycle s = .next s := by
  have hdecode : decodeWord w = .ok (.jp (fieldNNN w)) :=
    decodeWord_of_family_one (by rw [fieldFamily_eq]; omega)
  have htarget : zext16 (fieldNNN w) = s.pc :=
    BitVec.eq_of_toNat_eq (by rw [zext16_toNat, fieldNNN_toNat]; omega)
  calc instructionCycle s
      = execWord w (s.setPc (s.pc + 2)) := instructionCycle_of_wordAtPc hrun (Nat.le_of_lt_succ hpc) hword
    _ = exec (.jp (fieldNNN w)) (s.setPc (s.pc + 2)) := execWord_of_decodeWord hdecode
    _ = .next (s.setPc (zext16 (fieldNNN w))) := rfl
    _ = .next s := by rw [htarget]; rfl

/-- Settles O45: the step runs the cycle of `s'`, which is `s` but for its schedule. -/
theorem selfJumpChangesNothing : Obligations.SelfJumpChangesNothing := by
  intro s s' w hnext hrun hword hpc hself
  rw [step_of_stepNext hnext, stepNext_eq hnext]
  exact instructionCycle_of_selfJump (s := { s with schedule := s'.schedule }) hrun hword hpc hself

end Sys2Proof.Machine
end
